-- ==== Sys2Proof/Word.lean ====
section
/-! DEFINITION. The value types of the engine: bytes, 128-bit vector values, the lane set. -/

namespace Sys2Proof

/-- A byte (00_scope R9). -/
abbrev Byte := BitVec 8

/-- A 128-bit vector value: a digest, seed, lane, accumulator or block (00_scope R6 `VW`, R9). Read as a number, its
byte `j` is `bits[8j+7:8j]`, byte 0 the least significant (R9, 20_memory R41; log 8). -/
abbrev V128 := BitVec 128

/-- `ZERO128` (00_scope R9): all sixteen bytes zero. -/
def zero128 : V128 := 0#128

/-- The lane set `LANE[0..3]`, 512 bits together (10_state R21). -/
structure Lanes where
  l0 : V128
  l1 : V128
  l2 : V128
  l3 : V128
  deriving DecidableEq, Repr, Inhabited

end Sys2Proof
end

