-- ==== Sys2Proof/Machine/Operands.lean ====
section
/-! DEFINITION. Byte strings and operands: how bytes become 128-bit values and the length field, and back
(00_scope R9, R10; 20_memory R41, R43, R46; 30_encoding R66). -/

namespace Sys2Proof.Machine

open Sys2Proof

/-- `v.b[j]`, the byte `bits[8j+7:8j]` of a vector value (00_scope R9). -/
def byteOf (v : V128) (j : Nat) : Byte := v.extractLsb' (8 * j) 8

/-- The vector value whose byte `j` is `f j` for `j = 0..15` (00_scope R9): byte 0 is the least significant. -/
def ofBytes (f : Nat → Byte) : V128 :=
  f 15 ++ f 14 ++ f 13 ++ f 12 ++ f 11 ++ f 10 ++ f 9 ++ f 8 ++
  f 7 ++ f 6 ++ f 5 ++ f 4 ++ f 3 ++ f 2 ++ f 1 ++ f 0

/-- The sixteen bytes `v.b[0] ... v.b[15]` as a byte string, the order in which a digest leaves the engine
(20_memory R41, 30_encoding R69). -/
def bytesOf (v : V128) : List Byte := (List.range 16).map (byteOf v)

/-- `Load16(s)` (20_memory R41, R46): byte `j` of the value is `s[j]`; nothing is swapped. R46 asks for sixteen bytes;
every caller gives sixteen (log 14). -/
def load16 (s : List Byte) : V128 := ofBytes fun j => s.getD j 0

/-- `Pay(data, i, n)` and the slice `s[i .. i+n-1]` of a byte string (00_scope R9, R10; 20_memory R46). R46 asks for
`i + n <= len`; every caller keeps it (log 14). -/
def slice (s : List Byte) (i n : Nat) : List Byte := (s.drop i).take n

/-- `LE64(b[0..7])` (30_encoding R66, R67): the unsigned number `sum b[j] * 2^(8j)`, least significant byte first,
over the bytes it is given (the caller gives eight). -/
def le64 : List Byte → Nat
  | [] => 0
  | b :: bs => b.toNat + 256 * le64 bs

/-- The eight bytes `len[0..7]` of a length `n < 2^64`, least significant first (30_encoding R66). -/
def le64Bytes (n : Nat) : List Byte := (List.range 8).map fun j => BitVec.ofNat 8 (n >>> (8 * j))

/-- The seed operand (30_encoding R62, R65, R66): the value sent, or `ZERO128` when none is sent. -/
def seedOr (seed : Option V128) : V128 := seed.getD zero128

/-- The vector value that the spec prints as the hex string `n` of 32 digits: byte 0 comes first (00_scope R9). -/
def hex16 (n : Nat) : V128 := ofBytes fun j => BitVec.ofNat 8 (n >>> (8 * (15 - j)))

end Sys2Proof.Machine
end

