-- ==== Sys2Proof/Syntax.lean ====
section
/-! DEFINITION. The four commands (spec/opcode_table.json), operands and all. -/

namespace Sys2Proof

/-- The engine's commands, one constructor per row of the opcode table. A seed operand is optional: `none` is the
form with `S = 0`, whose seed is `ZERO128`, `some v` the form with `S = 1` (30_encoding R61, R62, R65). -/
inductive Instr where
  /-- INIT (30_encoding R62, 43 R141). -/
  | init (seed : Option V128)
  /-- UPDATE (30_encoding R63, 43 R142). -/
  | update (data : List Byte)
  /-- FINALIZE (30_encoding R64, 43 R143). -/
  | finalize
  /-- HASH (30_encoding R65, 42 R131). -/
  | hash (seed : Option V128) (data : List Byte)
  deriving DecidableEq, Repr

end Sys2Proof
end

