-- ==== Sys2Proof/WellFormed.lean ====
section
/-! DEFINITION. Which commands an encoding can carry. -/

namespace Sys2Proof

/-- A command that a packet can carry: the payload's length fits the 64-bit length field (20_memory R40,
30_encoding R66). A seed is any 128-bit value. -/
def Instr.wellFormed : Instr → Bool
  | .init _ => true
  | .update data => decide (data.length < 2 ^ 64)
  | .finalize => true
  | .hash _ data => decide (data.length < 2 ^ 64)

end Sys2Proof
end

