-- ==== Sys2Proof/Decode.lean ====
section
/-! DEFINITION. Command packets: the decoder, total on any byte string (30_encoding R67), and the encoder
(R61 to R66). -/

namespace Sys2Proof

open Sys2Proof.Machine

/-- Why a packet is illegal (30_encoding R68). Every one of these raises `IllegalCommand` (60 R161). -/
inductive DecodeError where
  /-- The empty packet: no command byte. -/
  | emptyPacket
  /-- Bits 7:4 of the command byte are not zero. -/
  | reservedBits
  /-- `OP` spells no command. -/
  | noSuchOp
  /-- The seed flag on UPDATE or FINALIZE. -/
  | seedNotAllowed
  /-- The packet is shorter or longer than its command byte and length field call for. -/
  | badLength
  deriving DecidableEq, Repr

/-- The operations that the field `OP` spells (30_encoding R61). -/
inductive Op where
  | init | update | finalize | hash
  deriving DecidableEq, Repr

/-- The code of an operation in the field `OP` (30_encoding R61). -/
def opCode : Op → BitVec 3
  | .init => 0b001#3
  | .update => 0b010#3
  | .finalize => 0b011#3
  | .hash => 0b100#3

/-- The operation a code spells; `000`, `101`, `110` and `111` spell none (30_encoding R61). -/
def opOfCode (code : BitVec 3) : Option Op :=
  if code = 0b001#3 then some .init
  else if code = 0b010#3 then some .update
  else if code = 0b011#3 then some .finalize
  else if code = 0b100#3 then some .hash
  else none

/-- `CB.OP`, bits 2:0 of the command byte (30_encoding R61). -/
def opField (cb : Byte) : BitVec 3 := cb.extractLsb' 0 3

/-- `CB.S`, bit 3 of the command byte (30_encoding R61). -/
def seedFlag (cb : Byte) : Bool := cb.getLsbD 3

/-- Bits 7:4 of the command byte, which must be zero (30_encoding R61). -/
def reservedField (cb : Byte) : BitVec 4 := cb.extractLsb' 4 4

/-- The operands of INIT after the command byte (30_encoding R62, R67). -/
def decodeInit (s : Bool) (rest : List Byte) : Except DecodeError Instr :=
  if s then
    if rest.length = 16 then .ok (.init (some (load16 rest))) else .error .badLength
  else
    if rest.length = 0 then .ok (.init none) else .error .badLength

/-- The operands `len`, `data` that end an UPDATE or HASH packet: the payload, when the length field stands whole and
exactly that many bytes follow it, compared over the naturals (30_encoding R66, R67). -/
def decodePayload (rest : List Byte) : Except DecodeError (List Byte) :=
  if 8 ≤ rest.length then
    if rest.length = 8 + le64 (rest.take 8) then .ok (rest.drop 8) else .error .badLength
  else .error .badLength

/-- The operands of UPDATE after the command byte (30_encoding R63, R67). -/
def decodeUpdate (s : Bool) (rest : List Byte) : Except DecodeError Instr :=
  if s then .error .seedNotAllowed else (decodePayload rest).map .update

/-- FINALIZE has no operand (30_encoding R64, R67). -/
def decodeFinalize (s : Bool) (rest : List Byte) : Except DecodeError Instr :=
  if s then .error .seedNotAllowed
  else if rest.length = 0 then .ok .finalize else .error .badLength

/-- The operands of HASH after the command byte: the seed when `S = 1`, then length and data (30_encoding R65, R67). -/
def decodeHash (s : Bool) (rest : List Byte) : Except DecodeError Instr :=
  if s then
    if 16 ≤ rest.length then (decodePayload (rest.drop 16)).map (.hash (some (load16 (rest.take 16))))
    else .error .badLength
  else (decodePayload rest).map (.hash none)

/-- `Decode(pkt)` (30_encoding R67): every byte string is exactly one command or illegal (R68). -/
def decode : List Byte → Except DecodeError Instr
  | [] => .error .emptyPacket
  | cb :: rest =>
    if reservedField cb = 0#4 then
      match opOfCode (opField cb) with
      | some .init => decodeInit (seedFlag cb) rest
      | some .update => decodeUpdate (seedFlag cb) rest
      | some .finalize => decodeFinalize (seedFlag cb) rest
      | some .hash => decodeHash (seedFlag cb) rest
      | none => .error .noSuchOp
    else .error .reservedBits

/-! ### The encoder -/

/-- The command byte: zero in bits 7:4, then `S`, then `OP` (30_encoding R61). -/
def commandByte (op : Op) (s : Bool) : Byte := 0#4 ++ BitVec.ofBool s ++ opCode op

/-- The seed operand's bytes: none when the packet carries no seed (30_encoding R61, R66). -/
def encodeSeed : Option V128 → List Byte
  | none => []
  | some v => bytesOf v

/-- The operands `len` and `data` (30_encoding R61, R66). -/
def encodePayload (data : List Byte) : List Byte := le64Bytes data.length ++ data

/-- The packet of a command (30_encoding R61 to R66): the command byte, then seed, length, data. -/
def encode : Instr → List Byte
  | .init seed => commandByte .init seed.isSome :: encodeSeed seed
  | .update data => commandByte .update false :: encodePayload data
  | .finalize => [commandByte .finalize false]
  | .hash seed data => commandByte .hash seed.isSome :: (encodeSeed seed ++ encodePayload data)

/-! ### An opcode-table word as a packet -/

/-- The low `n` bytes of `w`, the least significant first. -/
def bytesLE (n w : Nat) : List Byte := (List.range n).map fun j => BitVec.ofNat 8 (w >>> (8 * j))

/-- The length that a packet with the bits `w` must have: `1`, `17`, `9 + n` or `25 + n` (30_encoding R70), `n` the
length field as it stands in `w`; for a command byte that spells no command, the `nbits` given, in whole bytes. -/
def tableLength (nbits w : Nat) : Nat :=
  let cb : Byte := BitVec.ofNat 8 w
  match opOfCode (opField cb), seedFlag cb with
  | some .init, false => 1
  | some .init, true => 17
  | some .update, _ => 9 + (w >>> 8) % 2 ^ 64
  | some .finalize, _ => 1
  | some .hash, false => 9 + (w >>> 8) % 2 ^ 64
  | some .hash, true => 25 + (w >>> 136) % 2 ^ 64
  | none, _ => (nbits + 7) / 8

/-- The packet whose bits are the `nbits` bits of `w`, bit 0 the least significant bit of the command byte, and zero
above them: operands that the table gives no bits are zeros (log 19). -/
def tablePacket (nbits w : Nat) : List Byte :=
  let v := w % 2 ^ nbits
  bytesLE (tableLength nbits v) v

/-- The instruction the decoder reads from an opcode-table word. -/
def decodeTableWord (nbits w : Nat) : Option Instr := (decode (tablePacket nbits w)).toOption

end Sys2Proof
end

