-- ==== Sys2Proof/Machine/Mix.lean ====
section
/-! DEFINITION. `MIX`, one AES encryption round with key injection (40_mix R80 to R85). Its tables are the spec's
own, from the AES standard (93 G1 to G5; log 6). -/

namespace Sys2Proof.Machine

open Sys2Proof

/-- The S-box table of 40_mix R82, row `Xx` as one 32-digit hex string, column `x0` first. -/
def sboxRows : List Nat :=
  [0x637c777bf26b6fc53001672bfed7ab76, 0xca82c97dfa5947f0add4a2af9ca472c0,
   0xb7fd9326363ff7cc34a5e5f171d83115, 0x04c723c31896059a071280e2eb27b275,
   0x09832c1a1b6e5aa0523bd6b329e32f84, 0x53d100ed20fcb15b6acbbe394a4c58cf,
   0xd0efaafb434d338545f9027f503c9fa8, 0x51a3408f929d38f5bcb6da2110fff3d2,
   0xcd0c13ec5f974417c4a77e3d645d1973, 0x60814fdc222a908846eeb814de5e0bdb,
   0xe0323a0a4906245cc2d3ac629195e479, 0xe7c8376d8dd54ea96c56f4ea657aae08,
   0xba78252e1ca6b4c6e8dd741f4bbd8b8a, 0x703eb5664803f60e613557b986c11d9e,
   0xe1f8981169d98e949b1e87e9ce5528df, 0x8ca1890dbfe6426841992d0fb054bb16]

/-- `SBOX[a]`: the entry in row `a / 16`, column `a mod 16` (40_mix R82). -/
def sbox (a : Byte) : Byte :=
  BitVec.ofNat 8 (sboxRows.getD (a.toNat / 16) 0 >>> (8 * (15 - a.toNat % 16)))

/-- `SubBytes(v)` (40_mix R82). -/
def subBytes (v : V128) : V128 := ofBytes fun j => sbox (byteOf v j)

/-- The byte index of row `r`, column `c` of the state array (40_mix R81). -/
def stateIx (r c : Nat) : Nat := r + 4 * c

/-- `ShiftRows(v)` (40_mix R83): byte `r + 4c` takes byte `r + 4((c + r) mod 4)`. -/
def shiftRows (v : V128) : V128 :=
  ofBytes fun j => byteOf v (stateIx (j % 4) ((j / 4 + j % 4) % 4))

/-- `2 * a` in GF(2^8) with polynomial `0x11b` (40_mix R84). -/
def xtime (a : Byte) : Byte := (a <<< 1) ^^^ (if a.getLsbD 7 then 0x1b#8 else 0x00#8)

/-- `3 * a` in GF(2^8) (40_mix R84). -/
def mul3 (a : Byte) : Byte := xtime a ^^^ a

/-- One column of `MixColumns` (40_mix R84): the byte `t_i` from the column `u0 u1 u2 u3`. -/
def mixColumn (u0 u1 u2 u3 : Byte) : Nat → Byte
  | 0 => xtime u0 ^^^ mul3 u1 ^^^ u2 ^^^ u3
  | 1 => u0 ^^^ xtime u1 ^^^ mul3 u2 ^^^ u3
  | 2 => u0 ^^^ u1 ^^^ xtime u2 ^^^ mul3 u3
  | _ => mul3 u0 ^^^ u1 ^^^ u2 ^^^ xtime u3

/-- `MixColumns(v)` (40_mix R84): byte `4c + i` is `t_i` of column `c`. -/
def mixColumns (v : V128) : V128 :=
  ofBytes fun j =>
    mixColumn (byteOf v (stateIx 0 (j / 4))) (byteOf v (stateIx 1 (j / 4)))
      (byteOf v (stateIx 2 (j / 4))) (byteOf v (stateIx 3 (j / 4))) (j % 4)

/-- `AddRoundKey(v, k)` (40_mix R85). -/
def addRoundKey (v k : V128) : V128 := v ^^^ k

/-- `MIX(state, material)` (40_mix R80): the material is the round key, added last. -/
def mix (state material : V128) : V128 :=
  addRoundKey (mixColumns (shiftRows (subBytes state))) material

/-! ### The field of R84 and the S-box's generating formula (R82) -/

/-- `a * b` in GF(2^8) (40_mix R84), by the bits of `b` from bit `7` down, `n` of them left. -/
def gfMulBits (a b : Byte) : Nat → Byte
  | 0 => 0
  | n + 1 => (if b.getLsbD (7 - n) then a else 0) ^^^ xtime (gfMulBits a b n)

/-- `a * b` in GF(2^8) with polynomial `0x11b` (40_mix R84). -/
def gfMul (a b : Byte) : Byte := gfMulBits a b 8

/-- `a` to the power `2^(n+1) - 2` in GF(2^8); for `n = 7` the multiplicative inverse, and 0 for 0 (40_mix R82). -/
def gfInvChain (a : Byte) : Nat → Byte
  | 0 => 1
  | n + 1 => let y := gfMul (gfInvChain a n) a; gfMul y y

/-- The formula that generates the S-box (40_mix R82): the inverse, then the affine map with constant `0x63`. -/
def sboxFormula (a : Byte) : Byte :=
  let y := gfInvChain a 7
  y ^^^ y.rotateLeft 1 ^^^ y.rotateLeft 2 ^^^ y.rotateLeft 3 ^^^ y.rotateLeft 4 ^^^ 0x63#8

end Sys2Proof.Machine
end

