-- ==== Sys2Proof/Config.lean ====
section
/-! DEFINITION. The constant schedule `CFG` (41_schedule_padding R100 to R104) and the test configuration (R109). -/

namespace Sys2Proof

/-- The configuration record `CFG` (41 R100): twelve vector values and the place of the data in the four padding
blocks. R100 and R107 let `OFFw` be a multiple of `w` with `OFFw + w <= 16`: the field holds WHICH of the `16 / w`
positions of R105 takes the data, so that no value of the type breaks R107 (93 U2; log 13). -/
structure Cfg where
  /-- `LANE_INIT[0]` (41 R100), and the three after it. -/
  laneInit0 : V128
  laneInit1 : V128
  laneInit2 : V128
  laneInit3 : V128
  /-- `TEMP_INIT` (41 R102), a field of its own. -/
  tempInit : V128
  /-- `K9K10`, `K11K12`, `K13K14`: the finishing constants (41 R101). -/
  k9k10 : V128
  k11k12 : V128
  k13k14 : V128
  /-- `FILL8`, `FILL4`, `FILL2`, `FILL1`: the fillers (41 R106). -/
  fill8 : V128
  fill4 : V128
  fill2 : V128
  fill1 : V128
  /-- `OFF8 / 8`, `OFF4 / 4`, `OFF2 / 2`, `OFF1`: the position of the data (41 R105, R107). -/
  pos8 : Fin 2
  pos4 : Fin 4
  pos2 : Fin 8
  pos1 : Fin 16
  deriving DecidableEq, Repr, Inhabited

/-- 41 R103 item 1: the four lane constants are pairwise different. A hypothesis a claim may name; no rule needs it. -/
abbrev Cfg.LaneInitsDistinct (c : Cfg) : Prop :=
  [c.laneInit0, c.laneInit1, c.laneInit2, c.laneInit3].Nodup

/-- 41 R103 item 2: no finishing constant is a filler or `TEMP_INIT`. A hypothesis a claim may name. -/
abbrev Cfg.FinishingDistinct (c : Cfg) : Prop :=
  ∀ k ∈ [c.k9k10, c.k11k12, c.k13k14], k ∉ [c.tempInit, c.fill8, c.fill4, c.fill2, c.fill1]

/-- `CFG` itself: OPEN (92 D10, 93 U4). A constant with no body: nothing evaluates it and no proof learns a value of
it, so what is proved of the machine holds for every `CFG` (10_state R35; log 1). -/
opaque Config.cfg : Cfg

/-- `TESTCFG` (41 R109): made up by the spec for its test vectors. It is not the machine's `CFG`. -/
def Config.testCfg : Cfg where
  laneInit0 := Machine.hex16 0x000102030405060708090a0b0c0d0e0f
  laneInit1 := Machine.hex16 0x101112131415161718191a1b1c1d1e1f
  laneInit2 := Machine.hex16 0x202122232425262728292a2b2c2d2e2f
  laneInit3 := Machine.hex16 0x303132333435363738393a3b3c3d3e3f
  tempInit := Machine.hex16 0x404142434445464748494a4b4c4d4e4f
  k9k10 := Machine.hex16 0x505152535455565758595a5b5c5d5e5f
  k11k12 := Machine.hex16 0x606162636465666768696a6b6c6d6e6f
  k13k14 := Machine.hex16 0x707172737475767778797a7b7c7d7e7f
  fill8 := Machine.hex16 0x808182838485868788898a8b8c8d8e8f
  fill4 := Machine.hex16 0x909192939495969798999a9b9c9d9e9f
  fill2 := Machine.hex16 0xa0a1a2a3a4a5a6a7a8a9aaabacadaeaf
  fill1 := Machine.hex16 0xb0b1b2b3b4b5b6b7b8b9babbbcbdbebf
  pos8 := 1
  pos4 := 1
  pos2 := 1
  pos1 := 1

end Sys2Proof
end

