-- ==== Sys2Proof/Machine/Padding.lean ====
section
/-! DEFINITION. Padding blocks `PADw` (41_schedule_padding R105 to R108). -/

namespace Sys2Proof.Machine

open Sys2Proof

/-- The widths of the short tail units, in bytes (41 R105; 00_scope R6). -/
inductive TailWidth where
  | w8 | w4 | w2 | w1
  deriving DecidableEq, Repr

/-- `w` in bytes. -/
def widthBytes : TailWidth → Nat
  | .w8 => 8
  | .w4 => 4
  | .w2 => 2
  | .w1 => 1

/-- `FILLw` (41 R100, R106). -/
def fillOf (c : Cfg) : TailWidth → V128
  | .w8 => c.fill8
  | .w4 => c.fill4
  | .w2 => c.fill2
  | .w1 => c.fill1

/-- `OFFw`, the byte offset of the data (41 R100, R106): a multiple of `w` with `OFFw + w <= 16` (R107). -/
def offOf (c : Cfg) : TailWidth → Nat
  | .w8 => 8 * c.pos8.val
  | .w4 => 4 * c.pos4.val
  | .w2 => 2 * c.pos2.val
  | .w1 => c.pos1.val

/-- `PADw(t)` (41 R106): the filler, with the `w` bytes at `OFFw` replaced by the tail unit in stream order. R106 asks
for exactly `w` bytes; every caller gives them (log 14). -/
def padBlock (c : Cfg) (w : TailWidth) (t : List Byte) : V128 :=
  ofBytes fun i =>
    if offOf c w ≤ i ∧ i < offOf c w + widthBytes w then t.getD (i - offOf c w) 0
    else byteOf (fillOf c w) i

/-- `if r & w`: the bit of weight `w` is set in the natural number `r` (00_scope R10). -/
def unitPresent (r w : Nat) : Bool := r &&& w != 0

end Sys2Proof.Machine
end

