-- ==== Sys2Proof/Machine/OneShot.lean ====
section
/-! DEFINITION. The two one-shot algorithms as pure functions of data, seed and `CFG`, and the functions they share
with the commands (42_oneshot R120 to R130). -/

namespace Sys2Proof.Machine

open Sys2Proof

/-! ### Small-key algorithm -/

/-- The loop of `BLOCKS16` (42 R121): `n` blocks from index `p` on, each mixed into `h` and into `temp`. -/
def blockLoop (data : List Byte) : Nat → Nat → V128 → V128 → V128 × V128
  | 0, _, h, temp => (h, temp)
  | n + 1, p, h, temp =>
    let b := load16 (slice data p 16)
    blockLoop data n (p + 16) (mix h b) (mix temp b)

/-- `BLOCKS16(h, data)` (42 R121): the new `h` and the cursor. Without a full block there is no `temp` and no extra
`MIX`. -/
def blocks16 (c : Cfg) (h : V128) (data : List Byte) : V128 × Nat :=
  let nb := data.length / 16
  if nb = 0 then (h, 0)
  else
    let (h', temp) := blockLoop data nb 0 h c.tempInit
    (mix h' temp, 16 * nb)

/-- One line of the small-key tail cascade (42 R122): when the unit of width `w` is present, its padding block is
XORed into `h` and the cursor moves on. -/
def xorUnit (c : Cfg) (t : List Byte) (w : TailWidth) (hq : V128 × Nat) : V128 × Nat :=
  if unitPresent t.length (widthBytes w) then
    (hq.1 ^^^ padBlock c w (slice t hq.2 (widthBytes w)), hq.2 + widthBytes w)
  else hq

/-- `TAILS(h, t)` (42 R122): the units 8, 4, 2, 1 in that order, by exclusive-or. -/
def tails (c : Cfg) (h : V128) (t : List Byte) : V128 :=
  (xorUnit c t .w1 (xorUnit c t .w2 (xorUnit c t .w4 (xorUnit c t .w8 (h, 0))))).1

/-- `FIN3(h)` (42 R123): the three finishing rounds. -/
def fin3 (c : Cfg) (h : V128) : V128 := mix (mix (mix h c.k9k10) c.k11k12) c.k13k14

/-- `SMALLKEY(data, S)` (42 R120), for fewer than 64 bytes. -/
def smallKey (c : Cfg) (data : List Byte) (seed : V128) : V128 :=
  let (h, p) := blocks16 c seed data
  fin3 c (tails c h (slice data p (data.length - p)))

/-! ### Large-key algorithm -/

/-- `LANEINIT(S)` (42 R124). -/
def laneInit (c : Cfg) (seed : V128) : Lanes :=
  ⟨seed ^^^ c.laneInit0, seed ^^^ c.laneInit1, seed ^^^ c.laneInit2, seed ^^^ c.laneInit3⟩

/-- `LANE[i] <- MIX(LANE[i], material)`. -/
def mixLane (i : Fin 4) (material : V128) (l : Lanes) : Lanes :=
  match i with
  | 0 => { l with l0 := mix l.l0 material }
  | 1 => { l with l1 := mix l.l1 material }
  | 2 => { l with l2 := mix l.l2 material }
  | 3 => { l with l3 := mix l.l3 material }

/-- `ABSORB64(lanes, blk)` (42 R125): sub-block `i` of a super-block goes to lane `i`. -/
def absorb64 (l : Lanes) (blk : List Byte) : Lanes :=
  ⟨mix l.l0 (load16 (slice blk 0 16)), mix l.l1 (load16 (slice blk 16 16)),
   mix l.l2 (load16 (slice blk 32 16)), mix l.l3 (load16 (slice blk 48 16))⟩

/-- The bulk loop (42 R129 step 2, 43 R142 step (b)): `n` super-blocks of `data` from index `p` on, in order. -/
def absorbRun (data : List Byte) : Nat → Nat → Lanes → Lanes
  | 0, _, l => l
  | n + 1, p, l => absorbRun data n (p + 64) (absorb64 l (slice data p 64))

/-- The first line of the large-key tail cascade (42 R126): a 32-byte unit feeds lanes 0 and 1. -/
def mixUnit32 (t : List Byte) (lq : Lanes × Nat) : Lanes × Nat :=
  if unitPresent t.length 32 then
    (mixLane 1 (load16 (slice t (lq.2 + 16) 16)) (mixLane 0 (load16 (slice t lq.2 16)) lq.1), lq.2 + 32)
  else lq

/-- The second line (42 R126): a 16-byte unit feeds lane 2. -/
def mixUnit16 (t : List Byte) (lq : Lanes × Nat) : Lanes × Nat :=
  if unitPresent t.length 16 then (mixLane 2 (load16 (slice t lq.2 16)) lq.1, lq.2 + 16) else lq

/-- The lane that a short unit of the large-key cascade feeds (42 R126). -/
def laneOfWidth : TailWidth → Fin 4
  | .w8 => 3
  | .w4 => 0
  | .w2 => 1
  | .w1 => 2

/-- The other lines (42 R126): the padding block of the unit of width `w` is mixed, not XORed, into its lane
(41 R108). -/
def mixUnit (c : Cfg) (t : List Byte) (w : TailWidth) (lq : Lanes × Nat) : Lanes × Nat :=
  if unitPresent t.length (widthBytes w) then
    (mixLane (laneOfWidth w) (padBlock c w (slice t lq.2 (widthBytes w))) lq.1, lq.2 + widthBytes w)
  else lq

/-- `TAILL(lanes, t)` (42 R126): the units 32, 16, 8, 4, 2, 1 in that order. -/
def tailL (c : Cfg) (l : Lanes) (t : List Byte) : Lanes :=
  (mixUnit c t .w1 (mixUnit c t .w2 (mixUnit c t .w4 (mixUnit c t .w8 (mixUnit16 t (mixUnit32 t (l, 0))))))).1

/-- `XLANE(lanes)` (42 R127): one `xorAll` of the four lanes as they stand, mixed into each. -/
def xLane (l : Lanes) : Lanes :=
  let x := l.l0 ^^^ l.l1 ^^^ l.l2 ^^^ l.l3
  ⟨mix l.l0 x, mix l.l1 x, mix l.l2 x, mix l.l3 x⟩

/-- `REDUCE(lanes)` (42 R128). -/
def reduce (l : Lanes) : V128 := mix (mix l.l0 l.l1) (mix l.l2 l.l3)

/-- `LARGEKEY(data, S)` (42 R129), for 64 bytes or more. -/
def largeKey (c : Cfg) (data : List Byte) (seed : V128) : V128 :=
  let nb := data.length / 64
  let lanes := absorbRun data nb 0 (laneInit c seed)
  let lanes := tailL c lanes (slice data (64 * nb) (data.length - 64 * nb))
  mix (reduce (xLane lanes)) c.k9k10

/-! ### Hybrid selector -/

/-- `THRESHOLD` (00_scope R6): 64 bytes, fixed. -/
def threshold : Nat := 64

/-- `HYBRID(data, S)` (42 R130). -/
def hybrid (c : Cfg) (data : List Byte) (seed : V128) : V128 :=
  if data.length < threshold then smallKey c data seed else largeKey c data seed

end Sys2Proof.Machine
end

