-- ==== Sys2Proof/Machine/State.lean ====
section
/-! DEFINITION. The state of one engine (10_state R20), the host's two channels, the reasons a step can stop, and the
state after reset (10_state R36). -/

namespace Sys2Proof.Machine

open Sys2Proof

/-- `PHASE`, the session tag (10_state R27). Code `11` has no constructor: it is never produced (93 U10). -/
inductive Phase where
  /-- No session: no INIT or HASH since reset. -/
  | idle
  /-- Accepting UPDATE. -/
  | active
  /-- Consumed by FINALIZE, or by the FINALIZE inside HASH. -/
  | finalized
  deriving DecidableEq, Repr

/-- The engine's own faults (60_exceptions R160). Raising one is a NEXT state: `ERR` takes its code (R166). -/
inductive EngineFault where
  /-- Code 1, raised at decode (60 R161). -/
  | illegalCommand
  /-- Code 2, raised by UPDATE and FINALIZE in `IDLE` (60 R162). -/
  | noSession
  /-- Code 3, raised by UPDATE and FINALIZE in `FINALIZED` (60 R163). -/
  | reuseAfterFinalize
  /-- Code 4, raised by UPDATE and HASH (60 R164). -/
  | lengthOverflow
  deriving DecidableEq, Repr

/-- What the host does next (70_reset_and_hazards R195, R196): asserts the reset event, or sends a command packet, any
byte string (30_encoding R60). -/
inductive HostEvent where
  | reset
  | packet (bytes : List Byte)
  deriving DecidableEq, Repr

/-- The cells of `BUF` that hold a value, by index (10_state R25, 20_memory R40): addresses strictly rising. A cell
that is not listed holds no value (10_state R36; log 3). -/
abbrev Memory := List Host.Cell

/-- The state of one engine: the items of 10_state R20, and two fields of the model for the host's channels. -/
structure State where
  /-- `LANE[0..3]` (10_state R21). -/
  lanes : Lanes
  /-- `ACC` (10_state R22). -/
  acc : V128
  /-- `SEED` (10_state R23). -/
  seed : V128
  /-- `COUNT`, `COUNT_W = 64` bits (10_state R24; log 7). -/
  count : BitVec 64
  /-- `BUF[0..63]` (10_state R25). -/
  buf : Memory
  /-- `PHASE` (10_state R27). -/
  phase : Phase
  /-- `ERR`, the sticky fault code, 0 for none (10_state R28; log 10). -/
  err : BitVec 3
  /-- MODEL: the command channel, what the host has sent and the engine has not yet taken, in order (30_encoding R60,
  70 R196; log 4). -/
  cmds : List HostEvent
  /-- MODEL: the response channel, every response packet sent, oldest first (30_encoding R69, 70 R195; log 5). -/
  resps : List (List Byte)
  deriving DecidableEq, Repr

/-- Why the model stops. The engine's own faults are not here: they are next states (60 R166). Both reasons are
unreachable from a state that keeps the invariant of Safety.lean (log 21). -/
inductive Fault where
  /-- Raised by a read of `BUF[i]` while the cell holds no value (10_state R36, 20_memory R46). SAFE: the model stops
  where the spec gives no value. -/
  | bufNoValue (i : Nat)
  /-- Raised by an access to `BUF[i .. i+n-1]` with `i + n > 64`, cells that do not exist (20_memory R46). SAFE: the
  model stops where the spec defines nothing. -/
  | bufOutOfRange (i n : Nat)
  deriving DecidableEq, Repr

/-- Why the model gives no meaning. -/
inductive Refusal where
  /-- Raised by `exec` alone, for an instruction with no meaning yet. SAFE: nothing can be proved of the instruction.
  No arm uses it: all four commands have their meaning. -/
  | notModelled (mnemonic : String)
  deriving DecidableEq, Repr

/-- The machine right after reset (10_state R36, 70 R190, R191): `IDLE`, no fault, `COUNT = 0`, no `BUF` cell holds a
value. The lanes, `ACC` and `SEED` have no value in the spec and zero here (DESIGN CHOICE, unsafe; log 2). Both
channels are empty (log 4, log 5). -/
def State.reset : State where
  lanes := ⟨zero128, zero128, zero128, zero128⟩
  acc := zero128
  seed := zero128
  count := 0#64
  buf := []
  phase := .idle
  err := 0#3
  cmds := []
  resps := []

end Sys2Proof.Machine
end

