-- ==== Sys2Proof/Machine/Flags.lean ====
section
/-! DEFINITION. The condition-like state: the codes of `PHASE` and `ERR`, the `STATUS` view, and the conditions the
commands test (10_state R26 to R31). -/

namespace Sys2Proof.Machine

open Sys2Proof

/-- The code of `PHASE` (10_state R27). -/
def phaseCode : Phase → BitVec 2
  | .idle => 0b00#2
  | .active => 0b01#2
  | .finalized => 0b10#2

/-- `code(F)` (10_state R28, 60 R160). -/
def faultCode : EngineFault → BitVec 3
  | .illegalCommand => 1#3
  | .noSession => 2#3
  | .reuseAfterFinalize => 3#3
  | .lengthOverflow => 4#3

/-- `STATUS` (10_state R29): `[7:5]` zero, `[4:3]` the code of `PHASE`, `[2:0]` `ERR`. -/
def statusByte (s : State) : Byte := 0#3 ++ phaseCode s.phase ++ s.err

/-- `ERR != 0`: a fault is latched (60 R167). -/
def faulted (s : State) : Bool := s.err != 0#3

/-- `R = COUNT mod 64` (10_state R26): the number of pending bytes and the index of the cell written next. -/
def remainder (s : State) : Nat := s.count.toNat % 64

/-- `COUNT < 64`: the session takes the small-key path (43 R143). -/
def shortSession (s : State) : Bool := decide (s.count.toNat < 64)

/-- `MAX_INPUT = 2^COUNT_W - 2` (00_scope R6, 10_state R24). -/
def maxInput : Nat := 2 ^ 64 - 2

/-- `SENTINEL = 2^COUNT_W - 1`, the counter value that is reserved and never stored (00_scope R6, 10_state R24). -/
def sentinel : BitVec 64 := BitVec.allOnes 64

/-- `COUNT + n > MAX_INPUT`, over the naturals (43 R144, 60 R164). -/
def overflows (s : State) (n : Nat) : Bool := decide (s.count.toNat + n > maxInput)

end Sys2Proof.Machine
end

