-- ==== Sys2Proof/Machine/Ops.lean ====
section
/-! DEFINITION. The named operations over `BUF`, the channels and the registers: buffer access (20_memory R46), fault
entry and the refusal of a faulted engine (60 R166, R167), responses (30_encoding R69), the reset event (70 R190). -/

namespace Sys2Proof.Machine

open Sys2Proof

/-! ### Cells -/

/-- The byte in cell `a`, if the cell holds a value. -/
def Memory.read : Memory → Nat → Option Byte
  | [], _ => none
  | (b, v) :: m, a => if a = b then some v else Memory.read m a

/-- Cell `a` takes the byte `v`; every other cell keeps what it holds. The list stays sorted. -/
def Memory.write : Memory → Nat → Byte → Memory
  | [], a, v => [(a, v)]
  | (b, w) :: m, a, v =>
    if a < b then (a, v) :: (b, w) :: m
    else if a = b then (a, v) :: m
    else (b, w) :: Memory.write m a v

/-- The canonical form of a buffer: indices strictly rising, all below 64. No value is the content of an unlisted
cell, so every entry differs from it. -/
abbrev Memory.wf (m : Memory) : Prop :=
  m.Pairwise (fun x y => x.1 < y.1) ∧ ∀ c ∈ m, c.1 < 64

/-! ### Buffer access -/

/-- The `n` cells from index `i` on, in order; a cell with no value faults (10_state R36). -/
def readCells (m : Memory) : Nat → Nat → Except Fault (List Byte)
  | _, 0 => .ok []
  | i, n + 1 =>
    match m.read i with
    | none => .error (.bufNoValue i)
    | some b => (readCells m (i + 1) n).map (b :: ·)

/-- `BufRead(i, n)` (20_memory R46): the bytes `BUF[i .. i+n-1]`; cells from 64 on do not exist. -/
def bufRead (m : Memory) (i n : Nat) : Except Fault (List Byte) :=
  if i + n ≤ 64 then readCells m i n else .error (.bufOutOfRange i n)

/-- The bytes of `s` into the cells from index `i` on, in order. -/
def writeCells (m : Memory) : Nat → List Byte → Memory
  | _, [] => m
  | i, b :: s => writeCells (m.write i b) (i + 1) s

/-- `BufWrite(i, s)` (20_memory R46): `BUF[i+j] <- s[j]`; cells from 64 on do not exist. -/
def bufWrite (m : Memory) (i : Nat) (s : List Byte) : Except Fault Memory :=
  if i + s.length ≤ 64 then .ok (writeCells m i s) else .error (.bufOutOfRange i s.length)

/-! ### Responses, fault entry -/

/-- A response packet goes out on the response channel (30_encoding R60). -/
def send (p : List Byte) (s : State) : State := { s with resps := s.resps ++ [p] }

/-- `respond(STATUS)` (00_scope R10, 30_encoding R69): the status byte after the command, alone. -/
def respondStatus (s : State) : State := send [statusByte s] s

/-- `respond(STATUS, ACC)` (00_scope R10, 30_encoding R69): the status byte, then the 16 digest bytes. -/
def respondDigest (s : State) : State := send (statusByte s :: bytesOf s.acc) s

/-- `ERR` takes a fault's code when it is 0, and keeps its value once it is not (10_state R28). -/
def latch (f : EngineFault) (s : State) : State :=
  if s.err = 0#3 then { s with err := faultCode f } else s

/-- `raise F`, fault entry (60 R166): no register or cell changes but `ERR`; the response is the status byte alone;
control goes nowhere. The one way out is the reset event (60 R168), see `resetEvent`. -/
def raise (f : EngineFault) (s : State) : State := respondStatus (latch f s)

/-- The answer of a faulted engine to any packet (60 R167): the status byte alone, and nothing changes, not even
`ERR`. -/
def refuse (s : State) : State := respondStatus s

/-- `if ERR != 0: respond(STATUS)`, the first line of every command (60 R165 item 1, R167). -/
def unlessFaulted (s : State) (run : State → Host.Outcome State Fault Refusal) :
    Host.Outcome State Fault Refusal :=
  if faulted s then .next (refuse s) else run s

/-- A command's result: the next state, answered, or the model's fault of a buffer access. -/
def finish (r : Except Fault State) (answer : State → State) : Host.Outcome State Fault Refusal :=
  match r with
  | .ok s => .next (answer s)
  | .error f => .fault f

/-! ### The reset event and the command channel -/

/-- The reset event (70 R190): `PHASE`, `ERR`, `COUNT` take their reset values and no `BUF` cell holds a value; the
lanes, `ACC` and `SEED` have no value in the spec and take the values of `State.reset` (log 2). The host's channels
are the host's and stay (log 20). Reset has no response (70 R196). -/
def resetEvent (s : State) : State :=
  { State.reset with cmds := s.cmds, resps := s.resps }

/-- The engine takes the next host event from its command channel (30_encoding R60, 70 R196); with none there it
waits (70 R190). -/
def takeEvent (s : State) : Option (HostEvent × State) :=
  match s.cmds with
  | [] => none
  | e :: rest => some (e, { s with cmds := rest })

/-- The host puts a packet where the engine takes its next event (log 4, log 19). -/
def offerPacket (p : List Byte) (s : State) : State := { s with cmds := .packet p :: s.cmds }

end Sys2Proof.Machine
end

