-- ==== Sys2Proof/Machine/Session.lean ====
section
/-! DEFINITION. The meanings of INIT, UPDATE, FINALIZE (43_incremental R141 to R144) and HASH (42_oneshot R131). What
depends on `CFG` takes it as an argument; the meanings give it `Config.cfg` (10_state R35). -/

namespace Sys2Proof.Machine

open Sys2Proof

/-! ### What the commands do once their tests are passed -/

/-- The register writes of INIT (43 R141): `SEED`, the lanes, `COUNT`, `PHASE`. `ACC` and `BUF` are not written. -/
def openSession (c : Cfg) (seed : V128) (s : State) : State :=
  { s with seed := seed, lanes := laneInit c seed, count := 0#64, phase := .active }

/-- `COUNT <- COUNT + n` (43 R144): the sum fits, its guard has been passed. -/
def addCount (count : BitVec 64) (n : Nat) : BitVec 64 := BitVec.ofNat 64 (count.toNat + n)

/-- `k = min(n, 64 - r)`, how many bytes UPDATE tops the buffer up with (43 R142 step (a)). -/
def topUp (r n : Nat) : Nat := min n (64 - r)

/-- How many full super-blocks UPDATE takes straight from a payload of `n` bytes at cursor `p`: the passes of
`while n - p >= 64` (43 R142 step (b)). -/
def fullBlocks (n p : Nat) : Nat := (n - p) / 64

/-- Steps (b) and (c) of UPDATE (43 R142), from cursor `p`: full super-blocks go to the lanes straight from the
payload, the 0 to 63 bytes left over to `BUF[0 ..]`, and `COUNT` grows by the whole payload. -/
def absorbRest (data : List Byte) (p : Nat) (s : State) : Except Fault State :=
  let n := data.length
  let q := p + 64 * fullBlocks n p
  match bufWrite s.buf 0 (slice data q (n - q)) with
  | .error f => .error f
  | .ok m =>
    .ok { s with lanes := absorbRun data (fullBlocks n p) p s.lanes, buf := m, count := addCount s.count n }

/-- UPDATE after its fault tests (43 R142): nothing for an empty payload; else step (a) when bytes are pending, which
ends the command when they do not reach 64, and then steps (b) and (c). -/
def absorbPayload (data : List Byte) (s : State) : Except Fault State :=
  let n := data.length
  let r := remainder s
  let k := topUp r n
  if n = 0 then .ok s
  else if r > 0 then
    match bufWrite s.buf r (slice data 0 k) with
    | .error f => .error f
    | .ok m =>
      if r + k = 64 then
        match bufRead m 0 64 with
        | .error f => .error f
        | .ok blk => absorbRest data k { s with buf := m, lanes := absorb64 s.lanes blk }
      else .ok { s with buf := m, count := addCount s.count n }
  else absorbRest data 0 s

/-- FINALIZE after its fault tests (43 R143): the small-key digest of the pending bytes when `COUNT < 64`, else steps
3 to 6 of the large-key algorithm on the live lanes; `COUNT`, `SEED` and `BUF` stay. -/
def closeSession (c : Cfg) (s : State) : Except Fault State :=
  if shortSession s then
    match bufRead s.buf 0 s.count.toNat with
    | .error f => .error f
    | .ok d => .ok { s with acc := smallKey c d s.seed, phase := .finalized }
  else
    match bufRead s.buf 0 (remainder s) with
    | .error f => .error f
    | .ok t =>
      let l := xLane (tailL c s.lanes t)
      .ok { s with lanes := l, acc := mix (reduce l) c.k9k10, phase := .finalized }

/-- The phase test of UPDATE and FINALIZE (43 R142, R143; 60 R162, R163): the fault it raises, if any. -/
def phaseFault : Phase → Option EngineFault
  | .idle => some .noSession
  | .active => none
  | .finalized => some .reuseAfterFinalize

/-! ### The four commands over a given `CFG` -/

/-- INIT (43 R141). -/
def initCommand (c : Cfg) (seed : V128) (s : State) : Host.Outcome State Fault Refusal :=
  unlessFaulted s fun s => .next (respondStatus (openSession c seed s))

/-- UPDATE (43 R142); the order of its tests is 60 R165's. -/
def updateCommand (data : List Byte) (s : State) : Host.Outcome State Fault Refusal :=
  unlessFaulted s fun s =>
    match phaseFault s.phase with
    | some f => .next (raise f s)
    | none =>
      if overflows s data.length then .next (raise .lengthOverflow s)
      else finish (absorbPayload data s) respondStatus

/-- FINALIZE (43 R143). -/
def finalizeCommand (c : Cfg) (s : State) : Host.Outcome State Fault Refusal :=
  unlessFaulted s fun s =>
    match phaseFault s.phase with
    | some f => .next (raise f s)
    | none => finish (closeSession c s) respondDigest

/-- The three inner steps of HASH (42 R131): INIT, UPDATE and FINALIZE with no response in between. -/
def hashSteps (c : Cfg) (seed : V128) (data : List Byte) (s : State) : Except Fault State :=
  match absorbPayload data (openSession c seed s) with
  | .error f => .error f
  | .ok s' => closeSession c s'

/-- HASH (42 R131): legal in every phase; its one fault is tested before any write. -/
def hashCommand (c : Cfg) (seed : V128) (data : List Byte) (s : State) : Host.Outcome State Fault Refusal :=
  unlessFaulted s fun s =>
    if data.length > maxInput then .next (raise .lengthOverflow s)
    else finish (hashSteps c seed data s) respondDigest

/-! ### The meanings -/

/-- INIT with the seed sent, or `ZERO128` (30_encoding R62, 43 R141). -/
def execInit (seed : Option V128) (s : State) : Host.Outcome State Fault Refusal :=
  initCommand Config.cfg (seedOr seed) s

/-- UPDATE (30_encoding R63, 43 R142). -/
def execUpdate (data : List Byte) (s : State) : Host.Outcome State Fault Refusal :=
  updateCommand data s

/-- FINALIZE (30_encoding R64, 43 R143). -/
def execFinalize (s : State) : Host.Outcome State Fault Refusal :=
  finalizeCommand Config.cfg s

/-- HASH with the seed sent, or `ZERO128` (30_encoding R65, 42 R131). -/
def execHash (seed : Option V128) (data : List Byte) (s : State) : Host.Outcome State Fault Refusal :=
  hashCommand Config.cfg (seedOr seed) data s

end Sys2Proof.Machine
end

