-- ==== Sys2Proof/Machine/Dispatch.lean ====
section
/-! DEFINITION. The dispatch: one arm per command. -/

namespace Sys2Proof.Machine

open Sys2Proof

def exec (i : Instr) (s : State) : Host.Outcome State Fault Refusal :=
  match i with
  | .init seed => Sys2Proof.Machine.execInit seed s
  | .update data => Sys2Proof.Machine.execUpdate data s
  | .finalize => Sys2Proof.Machine.execFinalize s
  | .hash seed data => Sys2Proof.Machine.execHash seed data s

end Sys2Proof.Machine
end

