-- ==== Sys2Proof/Machine/Step.lean ====
section
/-! DEFINITION. One step: the engine takes the next host event and answers it (00_scope R7, 70 R195, R196). -/

namespace Sys2Proof.Machine

open Sys2Proof

/-- One step (00_scope R7). With an empty command channel the engine waits and nothing changes (70 R190, 60 R175). A
reset event resets it (70 R190). A packet is refused when a fault is latched, before it is decoded (60 R167); it
raises `IllegalCommand` when it does not decode (60 R161, R165); else the command is executed. -/
def step (s : State) : Host.Outcome State Fault Refusal :=
  match takeEvent s with
  | none => .next s
  | some (.reset, s') => .next (resetEvent s')
  | some (.packet p, s') =>
    if faulted s' then .next (refuse s')
    else
      match decode p with
      | .error _ => .next (raise .illegalCommand s')
      | .ok i => exec i s'

/-- The state in which the host has sent, ahead of everything else, the packet of an opcode-table word (log 19). -/
def State.withFetchWord (s : State) (nbits w : Nat) : State := offerPacket (tablePacket nbits w) s

end Sys2Proof.Machine
end

