-- ==== Sys2Proof/Machine/Assembler.lean ====
section
/-! DEFINITION. The textual form of a command stream and its two pseudo-instructions (30_encoding R72, R73): a source
line becomes the host events it stands for. No step uses it; what R72 leaves open of the text is log 17. -/

namespace Sys2Proof.Machine

open Sys2Proof

/-- One line of a command stream (30_encoding R72), with the pseudo-instructions of R73. -/
inductive AsmLine where
  /-- An empty line, or a comment alone. -/
  | blank
  /-- `init [seed=S]`. -/
  | init (seed : Option V128)
  /-- `update D`. -/
  | update (data : List Byte)
  /-- `finalize`. -/
  | finalize
  /-- `hash [seed=S] D`. -/
  | hash (seed : Option V128) (data : List Byte)
  /-- The directive `reset`: the reset event, not a packet. -/
  | reset
  /-- Pseudo-instruction `session [seed=S] D`. -/
  | session (seed : Option V128) (data : List Byte)
  /-- Pseudo-instruction `chunks [seed=S] D1 ... Dk`. -/
  | chunks (seed : Option V128) (parts : List (List Byte))
  deriving DecidableEq, Repr

/-- The command packet of an instruction, as a host event. -/
def commandEvent (i : Instr) : HostEvent := .packet (encode i)

/-- What the host does for a line: the commands it assembles to (30_encoding R72), pseudo-instructions expanded
(R73). -/
def assemble : AsmLine → List HostEvent
  | .blank => []
  | .init seed => [commandEvent (.init seed)]
  | .update data => [commandEvent (.update data)]
  | .finalize => [commandEvent .finalize]
  | .hash seed data => [commandEvent (.hash seed data)]
  | .reset => [.reset]
  | .session seed data => [commandEvent (.init seed), commandEvent (.update data), commandEvent .finalize]
  | .chunks seed parts =>
    commandEvent (.init seed) :: (parts.map (fun d => commandEvent (.update d)) ++ [commandEvent .finalize])

/-! ### Text -/

/-- A word of a line: bare characters, or the text between two double quotes. -/
inductive Token where
  | word (chars : List Char)
  | quoted (chars : List Char)
  deriving DecidableEq, Repr

/-- Where the reader of a line stands: between words, inside a word, inside a quoted string. -/
inductive LexMode where
  | gap
  | inWord (acc : List Char)
  | inQuote (acc : List Char)
  deriving DecidableEq, Repr

/-- The double quote. -/
def quoteChar : Char := Char.ofNat 34

/-- A blank between words: a space or a tab. -/
def isBlank (ch : Char) : Bool := ch.toNat == 32 || ch.toNat == 9

/-- The words of a line; a `#` outside a quoted string starts a comment; an open quote at the end is no line. DESIGN
CHOICE (safe; log 17): no blank is needed after a closing quote, the next character starts a new word, so that
`"ab""cd"` is two words; 30_encoding R72 and R73 are silent. -/
def lex : LexMode → List Char → Option (List Token)
  | .gap, [] => some []
  | .inWord acc, [] => some [.word acc.reverse]
  | .inQuote _, [] => none
  | .gap, ch :: cs =>
    if ch = '#' then some []
    else if isBlank ch then lex .gap cs
    else if ch = quoteChar then lex (.inQuote []) cs
    else lex (.inWord [ch]) cs
  | .inWord acc, ch :: cs =>
    if ch = '#' then some [.word acc.reverse]
    else if isBlank ch then (lex .gap cs).map (.word acc.reverse :: ·)
    else lex (.inWord (ch :: acc)) cs
  | .inQuote acc, ch :: cs =>
    if ch = quoteChar then (lex .gap cs).map (.quoted acc.reverse :: ·)
    else lex (.inQuote (ch :: acc)) cs

/-- A hex digit, of either case (30_encoding R72). -/
def hexDigit (ch : Char) : Option Nat :=
  let n := ch.toNat
  if 48 ≤ n ∧ n ≤ 57 then some (n - 48)
  else if 97 ≤ n ∧ n ≤ 102 then some (n - 87)
  else if 65 ≤ n ∧ n ≤ 70 then some (n - 55)
  else none

/-- `hexstring`: an even number, possibly zero, of hex digits, two a byte (30_encoding R72). -/
def hexBytes : List Char → Option (List Byte)
  | [] => some []
  | [_] => none
  | a :: b :: cs => do
    let x ← hexDigit a
    let y ← hexDigit b
    let rest ← hexBytes cs
    return BitVec.ofNat 8 (16 * x + y) :: rest

/-- The ASCII bytes of a quoted string (30_encoding R72). -/
def asciiBytes : List Char → Option (List Byte)
  | [] => some []
  | ch :: cs => if ch.toNat < 128 then (asciiBytes cs).map (BitVec.ofNat 8 ch.toNat :: ·) else none

/-- `data` (30_encoding R72): hex digits, the word `empty`, or a quoted string. -/
def dataOf : Token → Option (List Byte)
  | .quoted cs => asciiBytes cs
  | .word cs => if cs = ['e', 'm', 'p', 't', 'y'] then some [] else hexBytes cs

/-- The one `data` that ends a line of `update`, `hash` or `session`; no word at all is the hexstring of no digits
(DESIGN CHOICE, safe; log 17). -/
def oneData : List Token → Option (List Byte)
  | [] => some []
  | [t] => dataOf t
  | _ => none

/-- `hex32`: exactly 32 hex digits, byte 0 first (30_encoding R72). -/
def hex32 (cs : List Char) : Option V128 :=
  if cs.length = 32 then (hexBytes cs).map load16 else none

/-- `[ seedarg ]`: `seed=` and 32 hex digits, or nothing; and the words after it (30_encoding R72). -/
def seedArg : List Token → Option (Option V128 × List Token)
  | .word ('s' :: 'e' :: 'e' :: 'd' :: '=' :: cs) :: rest => (hex32 cs).map fun v => (some v, rest)
  | rest => some (none, rest)

/-- The line that a row of words spells (30_encoding R72, R73); `none` when the grammar has no such line. DESIGN CHOICE
(safe; log 17): `chunks` with no `D` at all, `k = 0`, is a line, INIT and FINALIZE with no UPDATE between; 30_encoding
R73 gives no lower bound for `k`. -/
def lineOf : List Token → Option AsmLine
  | [] => some .blank
  | .word ['i', 'n', 'i', 't'] :: ts =>
    match seedArg ts with
    | some (seed, []) => some (.init seed)
    | _ => none
  | .word ['u', 'p', 'd', 'a', 't', 'e'] :: ts => (oneData ts).map .update
  | [.word ['f', 'i', 'n', 'a', 'l', 'i', 'z', 'e']] => some .finalize
  | .word ['h', 'a', 's', 'h'] :: ts => do
    let (seed, rest) ← seedArg ts
    let data ← oneData rest
    return .hash seed data
  | [.word ['r', 'e', 's', 'e', 't']] => some .reset
  | .word ['s', 'e', 's', 's', 'i', 'o', 'n'] :: ts => do
    let (seed, rest) ← seedArg ts
    let data ← oneData rest
    return .session seed data
  | .word ['c', 'h', 'u', 'n', 'k', 's'] :: ts => do
    let (seed, rest) ← seedArg ts
    let parts ← rest.mapM dataOf
    return .chunks seed parts
  | _ => none

/-- A source line to the host events it stands for (30_encoding R72). -/
def assembleText (line : List Char) : Option (List HostEvent) :=
  (lex .gap line).bind fun ts => (lineOf ts).map assemble

end Sys2Proof.Machine
end

