-- ==== Sys2Proof/Safety.lean ====
section
/-! DEFINITION. What counts as a safe state, in the terms the statements use: the invariants of 10_state R33, R37 and
60_exceptions R165, the relation of a session to its stream, runs of commands, and equality up to stale cells. -/

namespace Sys2Proof.Machine

open Sys2Proof

/-- The fault codes that can be latched in each phase, and 0 (60 R165). -/
def codeAllowed (p : Phase) (e : BitVec 3) : Bool :=
  match p with
  | .idle => e == 0#3 || e == 1#3 || e == 2#3 || e == 4#3
  | .active => e == 0#3 || e == 1#3 || e == 4#3
  | .finalized => e == 0#3 || e == 1#3 || e == 3#3 || e == 4#3

/-- The pending cells `BUF[0 .. R-1]` hold values (10_state R33 item 1, R37). -/
abbrev PendingReadable (s : State) : Prop := ∀ i < remainder s, (s.buf.read i).isSome = true

/-- The invariant of a state between commands: the buffer's form, readable pending cells, `COUNT <= MAX_INPUT`
(10_state R24, R33), `COUNT = 0` in `IDLE` (R37), and only the fault codes of 60 R165. -/
abbrev EngineInv (s : State) : Prop :=
  Memory.wf s.buf ∧ PendingReadable s ∧ s.count.toNat ≤ maxInput ∧
    (s.phase = .idle → s.count = 0#64) ∧ codeAllowed s.phase s.err = true

/-- `s` is an active session with seed `seed` that has accepted exactly the bytes `stream` (10_state R33 items 1 to
4): `COUNT` is their number, the lanes have absorbed the full super-blocks in order, and the pending cells hold the
last `R` bytes. -/
def Accepted (c : Cfg) (seed : V128) (stream : List Byte) (s : State) : Prop :=
  s.phase = .active ∧ s.seed = seed ∧ stream.length ≤ maxInput ∧ s.count.toNat = stream.length ∧
    s.lanes = absorbRun stream (stream.length / 64) 0 (laneInit c seed) ∧
    ∀ i < stream.length % 64, s.buf.read i = stream[64 * (stream.length / 64) + i]?

/-- The commands one after the other, each answered before the next (70 R196), up to the first stop. -/
def runCommands : List Instr → State → Host.Outcome State Fault Refusal
  | [], s => .next s
  | i :: is, s =>
    match exec i s with
    | .next s' => runCommands is s'
    | .fault f => .fault f
    | .refused r => .refused r

/-- Two states that differ at most in buffer cells at index `R` or above (10_state R33 item 5), responses included. -/
def SameUpToStale (s t : State) : Prop :=
  t = { s with buf := t.buf } ∧ ∀ i < remainder s, s.buf.read i = t.buf.read i

/-- The engine's own registers, without the buffer and the host's channels. -/
def registers (s : State) : Lanes × V128 × V128 × BitVec 64 × Phase × BitVec 3 :=
  (s.lanes, s.acc, s.seed, s.count, s.phase, s.err)

end Sys2Proof.Machine
end

