-- ==== Sys2Proof/Certificates/Slice0/Obligations.lean ====
section
/-! DEFINITION. The statements for the provers. Each docstring names the rule it formalises. Where a statement names
`Config.cfg` it holds for every `CFG`: the constant has no body (log 1). That packets arrive in `State.cmds` and
responses gather in `State.resps` is the model's form of the host interface (log 4, log 5). -/

open Sys2Proof Sys2Proof.Machine

/-! ### Packets: decoding and encoding -/

/-- Decode and encode agree, for every command an encoding can carry (30_encoding R61 to R67). -/
def Obligations.DecodeOfEncodeIsTheInstr : Prop :=
  ∀ i : Instr, i.wellFormed = true → decode (encode i) = .ok i

/-- The other direction: a packet that decodes is the encoding of what it decodes to, so no two packets spell one
command (30_encoding R67, R68). -/
def Obligations.DecodedPacketIsTheEncoding : Prop :=
  ∀ (p : List Byte) (i : Instr), decode p = .ok i → i.wellFormed = true ∧ encode i = p

/-- 30_encoding R67, 60 R161: the six legal forms, written out byte by byte, and nothing else; a packet that decodes
to no command raises `IllegalCommand`, in every phase, unless a fault is latched. -/
def Obligations.DecodeAcceptsExactlySixForms : Prop :=
  (∀ (p : List Byte) (i : Instr), decode p = .ok i ↔
    (p = [0x01#8] ∧ i = .init none) ∨
    (∃ seed : List Byte, seed.length = 16 ∧ p = 0x09#8 :: seed ∧ i = .init (some (load16 seed))) ∨
    (∃ len data : List Byte, len.length = 8 ∧ le64 len = data.length ∧ p = 0x02#8 :: (len ++ data) ∧
      i = .update data) ∨
    (p = [0x03#8] ∧ i = .finalize) ∨
    (∃ len data : List Byte, len.length = 8 ∧ le64 len = data.length ∧ p = 0x04#8 :: (len ++ data) ∧
      i = .hash none data) ∨
    (∃ seed len data : List Byte, seed.length = 16 ∧ len.length = 8 ∧ le64 len = data.length ∧
      p = 0x0c#8 :: (seed ++ len ++ data) ∧ i = .hash (some (load16 seed)) data)) ∧
  ∀ (s : State) (p : List Byte) (rest : List HostEvent), s.err = 0#3 → s.cmds = .packet p :: rest →
    (∀ i, decode p ≠ .ok i) →
    step s = .next { s with
      cmds := rest
      err := 1#3
      resps := s.resps ++ [[0#3 ++ phaseCode s.phase ++ 1#3]] }

/-- 30_encoding R68: every class of illegal packet of its table, in its order, raises `IllegalCommand` (code 1) in an
engine with no fault latched, and changes nothing else; exactly six command bytes begin a legal packet. -/
def Obligations.EveryIllegalEncodingRaises : Prop :=
  (∀ (s : State) (p : List Byte) (rest : List HostEvent), s.err = 0#3 → s.cmds = .packet p :: rest →
    (p = [] ∨
      (∃ cb r, p = cb :: r ∧ cb.extractLsb' 4 4 ≠ 0#4) ∨
      (∃ cb r, p = cb :: r ∧
        cb ∈ [0x00#8, 0x05#8, 0x06#8, 0x07#8, 0x08#8, 0x0d#8, 0x0e#8, 0x0f#8]) ∨
      (∃ cb r, p = cb :: r ∧ cb ∈ [0x0a#8, 0x0b#8]) ∨
      (∃ cb r, p = cb :: r ∧ cb ∈ [0x01#8, 0x03#8] ∧ r.length ≠ 0) ∨
      (∃ cb r, p = cb :: r ∧ cb = 0x09#8 ∧ r.length ≠ 16) ∨
      (∃ cb r, p = cb :: r ∧ cb ∈ [0x02#8, 0x04#8] ∧ (r.length < 8 ∨ r.length ≠ 8 + le64 (r.take 8))) ∨
      (∃ cb r, p = cb :: r ∧ cb = 0x0c#8 ∧
        (r.length < 24 ∨ r.length ≠ 24 + le64 ((r.drop 16).take 8)))) →
    step s = .next { s with
      cmds := rest
      err := 1#3
      resps := s.resps ++ [[0#3 ++ phaseCode s.phase ++ 1#3]] }) ∧
  ∀ cb : Byte, (∃ r i, decode (cb :: r) = .ok i) ↔ cb ∈ [0x01#8, 0x09#8, 0x02#8, 0x03#8, 0x04#8, 0x0c#8]

/-- Words written out from 30_encoding R62 to R65 decode to the commands they stand for. -/
def Obligations.WrittenOutPacketsDecode : Prop :=
  decode [0x01#8] = .ok (.init none) ∧
  decode [0x02#8, 3#8, 0#8, 0#8, 0#8, 0#8, 0#8, 0#8, 0#8, 0x61#8, 0x62#8, 0x63#8] =
    .ok (.update [0x61#8, 0x62#8, 0x63#8]) ∧
  decode [0x03#8] = .ok .finalize ∧
  decode [0x04#8, 1#8, 0#8, 0#8, 0#8, 0#8, 0#8, 0#8, 0#8, 0x61#8] = .ok (.hash none [0x61#8]) ∧
  decode (0x09#8 :: bytesOf (hex16 0xf0e1d2c3b4a5968778695a4b3c2d1e0f)) =
    .ok (.init (some (hex16 0xf0e1d2c3b4a5968778695a4b3c2d1e0f)))

/-- 30_encoding R66: the length field is the unsigned number whose byte `j` has weight `2^(8j)`. -/
def Obligations.LengthFieldIsLittleEndian : Prop :=
  ∀ len : List Byte, len.length = 8 →
    le64 len = ∑ j ∈ Finset.range 8, (len.getD j 0).toNat * 2 ^ (8 * j)

/-- 30_encoding R73: the two pseudo-instructions are the commands they expand to. -/
def Obligations.PseudoInstructionsExpand : Prop :=
  (∀ seed data, assemble (.session seed data) =
    assemble (.init seed) ++ assemble (.update data) ++ assemble .finalize) ∧
  ∀ seed parts, assemble (.chunks seed parts) =
    assemble (.init seed) ++ parts.flatMap (fun d => assemble (.update d)) ++ assemble .finalize

/-! ### Bytes and the buffer -/

/-- 20_memory R41: sixteen bytes become a value and leave it again unchanged, and read as a number the value has
byte 0 as its least significant. -/
def Obligations.SixteenBytesKeepTheirOrder : Prop :=
  (∀ s : List Byte, s.length = 16 → bytesOf (load16 s) = s ∧ ∀ j < 16, byteOf (load16 s) j = s.getD j 0) ∧
  ∀ v : V128, v.toNat = ∑ j ∈ Finset.range 16, (byteOf v j).toNat * 2 ^ (8 * j)

/-- 20_memory R46: `BufWrite` inside its bounds stores the bytes named, leaves every other cell and the canonical form
alone, and `BufRead` reads them back. -/
def Obligations.BufWriteThenReadReturnsBytes : Prop :=
  ∀ (m : Memory) (i : Nat) (s : List Byte), i + s.length ≤ 64 →
    ∃ m', bufWrite m i s = .ok m' ∧ bufRead m' i s.length = .ok s ∧
      (∀ a, ¬ (i ≤ a ∧ a < i + s.length) → m'.read a = m.read a) ∧ (Memory.wf m → Memory.wf m')

/-- MODEL (log 3, log 21; 20_memory R46, 10_state R36): an access past cell 63 stops by name, and so does a read whose
first cell holds no value. -/
def Obligations.AbsentCellsStopByName : Prop :=
  (∀ (m : Memory) (i n : Nat), 64 < i + n → bufRead m i n = .error (.bufOutOfRange i n)) ∧
  (∀ (m : Memory) (i : Nat) (s : List Byte), 64 < i + s.length →
    bufWrite m i s = .error (.bufOutOfRange i s.length)) ∧
  ∀ (m : Memory) (i n : Nat), i + (n + 1) ≤ 64 → m.read i = none → bufRead m i (n + 1) = .error (.bufNoValue i)

/-! ### MIX -/

/-- 40_mix R80 to R85: the four bytes of output column `c`, written out over the substituted bytes that row shift
brings there. -/
def Obligations.MixColumnFormula : Prop :=
  ∀ (a k : V128) (c : Nat), c < 4 →
    let u := fun r => sbox (byteOf a (r + 4 * ((c + r) % 4)))
    byteOf (mix a k) (4 * c) = xtime (u 0) ^^^ (xtime (u 1) ^^^ u 1) ^^^ u 2 ^^^ u 3 ^^^ byteOf k (4 * c) ∧
    byteOf (mix a k) (4 * c + 1) =
      u 0 ^^^ xtime (u 1) ^^^ (xtime (u 2) ^^^ u 2) ^^^ u 3 ^^^ byteOf k (4 * c + 1) ∧
    byteOf (mix a k) (4 * c + 2) =
      u 0 ^^^ u 1 ^^^ xtime (u 2) ^^^ (xtime (u 3) ^^^ u 3) ^^^ byteOf k (4 * c + 2) ∧
    byteOf (mix a k) (4 * c + 3) =
      (xtime (u 0) ^^^ u 0) ^^^ u 1 ^^^ u 2 ^^^ xtime (u 3) ^^^ byteOf k (4 * c + 3)

/-- 40_mix R86: its properties 1 to 4 (item 5, purity, is that `mix` is a function): the material enters by XOR;
`MIX` is a bijection in either argument; the value at zero; and output column `c` depends on four input bytes and on
material column `c` only. -/
def Obligations.MixHasTheStatedProperties : Prop :=
  (∀ a k, mix a k = mix a zero128 ^^^ k) ∧
  (∀ k, Function.Bijective fun a => mix a k) ∧ (∀ a, Function.Bijective fun k => mix a k) ∧
  mix zero128 zero128 = hex16 0x63636363636363636363636363636363 ∧
  ∀ (a a' k k' : V128) (c : Nat), c < 4 →
    byteOf a (4 * c) = byteOf a' (4 * c) →
    byteOf a (4 * ((c + 1) % 4) + 1) = byteOf a' (4 * ((c + 1) % 4) + 1) →
    byteOf a (4 * ((c + 2) % 4) + 2) = byteOf a' (4 * ((c + 2) % 4) + 2) →
    byteOf a (4 * ((c + 3) % 4) + 3) = byteOf a' (4 * ((c + 3) % 4) + 3) →
    (∀ i < 4, byteOf k (4 * c + i) = byteOf k' (4 * c + i)) →
    ∀ i < 4, byteOf (mix a k) (4 * c + i) = byteOf (mix a' k') (4 * c + i)

/-- 40_mix R82: the table is what the generating formula gives, a permutation with no fixed point. -/
def Obligations.SboxTableIsGeneratedPermutation : Prop :=
  (∀ a : Byte, sbox a = sboxFormula a) ∧ Function.Bijective sbox ∧ ∀ a : Byte, sbox a ≠ a

/-! ### Padding blocks and the one-shot functions -/

/-- 41 R107: every data offset is a multiple of the width and the data fits the block. -/
def Obligations.PadOffsetsAreWholePositions : Prop :=
  ∀ (c : Cfg) (w : TailWidth), widthBytes w ∣ offOf c w ∧ offOf c w + widthBytes w ≤ 16

/-- 41 R106: a padding block byte by byte; it loses nothing of the tail, and the filler under the data never reaches
it. -/
def Obligations.PadBlockPlacesTheTail : Prop :=
  (∀ (c : Cfg) (w : TailWidth) (t : List Byte) (i : Nat), t.length = widthBytes w → i < 16 →
    byteOf (padBlock c w t) i =
      if offOf c w ≤ i ∧ i < offOf c w + widthBytes w then t.getD (i - offOf c w) 0 else byteOf (fillOf c w) i) ∧
  (∀ (c : Cfg) (w : TailWidth) (t t' : List Byte), t.length = widthBytes w → t'.length = widthBytes w →
    padBlock c w t = padBlock c w t' → t = t') ∧
  ∀ (c c' : Cfg) (w : TailWidth) (t : List Byte), t.length = widthBytes w → offOf c w = offOf c' w →
    (∀ i < 16, ¬ (offOf c w ≤ i ∧ i < offOf c w + widthBytes w) →
      byteOf (fillOf c w) i = byteOf (fillOf c' w) i) →
    padBlock c w t = padBlock c' w t

/-- 42 R121: `BLOCKS16` is a fold of the full blocks in ascending order, into `h` and into `temp`, and one `MIX` of
the two when there is a block. -/
def Obligations.SmallKeyBlocksFoldInOrder : Prop :=
  ∀ (c : Cfg) (h : V128) (data : List Byte), data.length < 64 →
    let blocks := (List.range (data.length / 16)).map fun i => load16 (slice data (16 * i) 16)
    blocks16 c h data =
      if blocks = [] then (h, 0) else (mix (blocks.foldl mix h) (blocks.foldl mix c.tempInit), 16 * blocks.length)

/-- 42 R122: the tail of fewer than 16 bytes is consecutive units, 8, 4, 2 and 1 bytes wide, a unit present exactly
when its bit of the length is set, and each one present is XORed in through its padding block. -/
def Obligations.SmallKeyTailXorsItsUnits : Prop :=
  ∀ (c : Cfg) (h : V128) (u8 u4 u2 u1 : List Byte),
    (u8.length = 8 ∨ u8 = []) → (u4.length = 4 ∨ u4 = []) → (u2.length = 2 ∨ u2 = []) →
    (u1.length = 1 ∨ u1 = []) →
    tails c h (u8 ++ u4 ++ u2 ++ u1) =
      h ^^^ (if u8 = [] then zero128 else padBlock c .w8 u8) ^^^ (if u4 = [] then zero128 else padBlock c .w4 u4) ^^^
        (if u2 = [] then zero128 else padBlock c .w2 u2) ^^^ (if u1 = [] then zero128 else padBlock c .w1 u1)

/-- 42 R120, R123: `SMALLKEY` step by step: the full blocks, the tail, three finishing rounds. -/
def Obligations.SmallKeyRunsItsSteps : Prop :=
  ∀ (c : Cfg) (data : List Byte) (seed : V128), data.length < 64 →
    let h := tails c (blocks16 c seed data).1 (data.drop (16 * (data.length / 16)))
    smallKey c data seed = mix (mix (mix h c.k9k10) c.k11k12) c.k13k14

/-- 42 R126: the remainder of fewer than 64 bytes is consecutive units, 32 (two halves), 16, 8, 4, 2 and 1 bytes wide;
each unit present is mixed into its lane, in that order: 0 and 1, then 2, then 3, 0, 1, 2. -/
def Obligations.LargeKeyTailMixesItsUnits : Prop :=
  ∀ (c : Cfg) (l : Lanes) (a b u16 u8 u4 u2 u1 : List Byte),
    (a.length = 16 ∧ b.length = 16 ∨ a = [] ∧ b = []) → (u16.length = 16 ∨ u16 = []) →
    (u8.length = 8 ∨ u8 = []) → (u4.length = 4 ∨ u4 = []) → (u2.length = 2 ∨ u2 = []) →
    (u1.length = 1 ∨ u1 = []) →
    let after := fun (present : List Byte) (material l : V128) => if present = [] then l else mix l material
    tailL c l (a ++ b ++ u16 ++ u8 ++ u4 ++ u2 ++ u1) =
      ⟨after u4 (padBlock c .w4 u4) (after a (load16 a) l.l0),
       after u2 (padBlock c .w2 u2) (after b (load16 b) l.l1),
       after u1 (padBlock c .w1 u1) (after u16 (load16 u16) l.l2),
       after u8 (padBlock c .w8 u8) l.l3⟩

/-- 42 R129: `LARGEKEY` step by step: the lanes absorb the super-blocks in stream order, then the tail, the cross-lane
mix, the reduction and one finishing round. -/
def Obligations.LargeKeyRunsItsSteps : Prop :=
  ∀ (c : Cfg) (data : List Byte) (seed : V128), 64 ≤ data.length →
    let bulk := (List.range (data.length / 64)).foldl (fun l k => absorb64 l (slice data (64 * k) 64))
      (laneInit c seed)
    let l := tailL c bulk (data.drop (64 * (data.length / 64)))
    let x := l.l0 ^^^ l.l1 ^^^ l.l2 ^^^ l.l3
    largeKey c data seed =
      mix (mix (mix (mix l.l0 x) (mix l.l1 x)) (mix (mix l.l2 x) (mix l.l3 x))) c.k9k10

/-! ### Reset, the step, the channels -/

/-- The step runs the decoded command (00_scope R7, 60 R165): with no fault latched and a legal packet next on the
command channel, a step is `exec` of the command on the state with the packet taken. The channel as a field of the state
is the model's choice (log 4). -/
def Obligations.StepRunsTheDecodedCommand : Prop :=
  ∀ (s : State) (p : List Byte) (rest : List HostEvent) (i : Instr),
    s.err = 0#3 → s.cmds = .packet p :: rest → decode p = .ok i → step s = exec i { s with cmds := rest }

/-- With nothing on its command channel the engine waits (70 R190, 60 R175); that waiting is a step that changes nothing
is the model's choice (log 4). -/
def Obligations.StepWaitsForACommand : Prop :=
  ∀ s : State, s.cmds = [] → step s = .next s

/-- The reset event (70 R190, 10_state R36): `IDLE`, no fault, `COUNT = 0`, no cell holds a value. That the host's
channels stay is the model's choice (log 20). -/
def Obligations.ResetEventClearsTheEngine : Prop :=
  ∀ (s : State) (rest : List HostEvent), s.cmds = .reset :: rest →
    ∃ t, step s = .next t ∧ t.phase = .idle ∧ t.err = 0#3 ∧ t.count = 0#64 ∧ (∀ a, t.buf.read a = none) ∧
      t.cmds = rest ∧ t.resps = s.resps

/-- The values 10_state R36 gives for reset. -/
def Obligations.ResetStateHasTheStatedValues : Prop :=
  State.reset.phase = .idle ∧ State.reset.err = 0#3 ∧ State.reset.count = 0#64 ∧
    ∀ a, State.reset.buf.read a = none

/-- 10_state R29: the fields of the status byte, and that every response begins with it, taken after the command. -/
def Obligations.StatusByteLayout : Prop :=
  (∀ s : State,
    (statusByte s).extractLsb' 0 3 = s.err ∧
    (statusByte s).extractLsb' 3 2 =
      (match s.phase with | .idle => 0b00#2 | .active => 0b01#2 | .finalized => 0b10#2) ∧
    (statusByte s).extractLsb' 5 3 = 0#3) ∧
  ∀ (s t : State) (p : List Byte) (rest : List HostEvent), s.cmds = .packet p :: rest → step s = .next t →
    ∃ digest, t.resps = s.resps ++ [statusByte t :: digest]

/-- 30_encoding R69: every packet gets exactly one response: the status byte after the command, and the digest exactly
after a FINALIZE or HASH that did not fault; and only the status bytes R69 lists occur. -/
def Obligations.EveryPacketGetsItsResponse : Prop :=
  ∀ (s : State) (p : List Byte) (rest : List HostEvent), EngineInv s → s.cmds = .packet p :: rest →
    ∃ (t : State) (digest : List Byte), step s = .next t ∧ t.cmds = rest ∧
      t.resps = s.resps ++ [statusByte t :: digest] ∧
      (t.err = 0#3 → (decode p = .ok .finalize ∨ ∃ seed data, decode p = .ok (.hash seed data)) →
        statusByte t = 0x10#8 ∧ digest = bytesOf t.acc) ∧
      (t.err = 0#3 → ¬ (decode p = .ok .finalize ∨ ∃ seed data, decode p = .ok (.hash seed data)) →
        statusByte t = 0x08#8 ∧ digest = []) ∧
      (t.err ≠ 0#3 → digest = []) ∧
      (statusByte t :: digest).length ∈ [1, 17] ∧
      statusByte t ∈ [0x08#8, 0x10#8, 0x01#8, 0x02#8, 0x03#8, 0x04#8, 0x09#8, 0x0a#8, 0x0b#8, 0x0c#8,
        0x11#8, 0x12#8, 0x13#8, 0x14#8]

/-! ### The invariant -/

/-- The reset state meets the invariant of a state between commands. -/
def Obligations.ResetMeetsTheInvariant : Prop := EngineInv State.reset

/-- Every step keeps the invariant (10_state R24, R33, R37, 60 R165): the buffer's form, readable pending cells, a
count of at most `MAX_INPUT`, zero in `IDLE`, and only the fault codes a phase can latch. -/
def Obligations.StepKeepsTheInvariant : Prop :=
  ∀ s t : State, EngineInv s → step s = .next t → EngineInv t

/-- Every step from a state that meets the invariant answers (70 R194): the model's own stops are unreachable
(20_memory R46; log 21). -/
def Obligations.StepAlwaysAnswers : Prop :=
  ∀ s : State, EngineInv s → ∃ t, step s = .next t

/-- Whatever the host sends, packets of any bytes and resets in any order, a run from reset of any length never stops
and ends in a state that meets the invariant (70 R194, R195; 20_memory R46). -/
def Obligations.NoRunFromResetStops : Prop :=
  ∀ (n : Nat) (events : List HostEvent),
    ∃ t, Host.Core.run Sys2Proof.core n { State.reset with cmds := events } = .next t ∧ EngineInv t

/-! ### Faults -/

/-- 60 R167: a faulted engine answers any packet with the status byte alone and changes nothing, before decoding, and
so does every command. -/
def Obligations.FaultedEngineRefusesEveryPacket : Prop :=
  (∀ (s : State) (p : List Byte) (rest : List HostEvent), s.err ≠ 0#3 → s.cmds = .packet p :: rest →
    step s = .next { s with cmds := rest, resps := s.resps ++ [[statusByte s]] }) ∧
  ∀ (s : State) (i : Instr), s.err ≠ 0#3 → exec i s = .next { s with resps := s.resps ++ [[statusByte s]] }

/-- A run of packets on a faulted engine, however long, only sends the status byte each time (60 R167, R168). -/
def Obligations.FaultedRunChangesNothing : Prop :=
  ∀ (packets : List (List Byte)) (s : State) (rest : List HostEvent), s.err ≠ 0#3 →
    s.cmds = packets.map .packet ++ rest →
    Host.Core.run Sys2Proof.core packets.length s =
      .next { s with cmds := rest, resps := s.resps ++ List.replicate packets.length [statusByte s] }

/-- Reset is the only thing that clears `ERR`, and no other step changes a latched code (70 R190, 10_state R28). -/
def Obligations.OnlyResetClearsErr : Prop :=
  ∀ s t : State, step s = .next t → s.err ≠ 0#3 → t.err = s.err ∨ ∃ rest, s.cmds = .reset :: rest

/-- 60 R166: a packet that makes an engine fault changes no register or cell but `ERR`; the code is one of the four,
and the response is the status byte `ERR | PHASE << 3` alone. -/
def Obligations.FaultEntryWritesErrOnly : Prop :=
  ∀ (s t : State) (p : List Byte) (rest : List HostEvent), s.err = 0#3 → s.cmds = .packet p :: rest →
    step s = .next t → t.err ≠ 0#3 →
    t.err ∈ [1#3, 2#3, 3#3, 4#3] ∧
    t = { s with
      cmds := rest
      err := t.err
      resps := s.resps ++ [[t.err.setWidth 8 ||| (phaseCode s.phase).setWidth 8 <<< 3]] }

/-- 60 R165: one packet reports at most one fault, the first that applies in the order latched, decode, phase, length;
and only the listed codes can be latched in each phase. -/
def Obligations.FirstFaultInOrderIsReported : Prop :=
  ∀ (s t : State) (p : List Byte) (rest : List HostEvent), s.cmds = .packet p :: rest → step s = .next t →
    t.err =
      (if s.err ≠ 0#3 then s.err
      else match decode p with
        | .error _ => 1#3
        | .ok (.init _) => 0#3
        | .ok (.update data) =>
          (match s.phase with
          | .idle => 2#3
          | .finalized => 3#3
          | .active => if s.count.toNat + data.length > 2 ^ 64 - 2 then 4#3 else 0#3)
        | .ok .finalize =>
          (match s.phase with
          | .idle => 2#3
          | .finalized => 3#3
          | .active => 0#3)
        | .ok (.hash _ data) => if data.length > 2 ^ 64 - 2 then 4#3 else 0#3) ∧
    (s.err = 0#3 → codeAllowed s.phase t.err = true)

/-- 60 R162: UPDATE and FINALIZE in `IDLE` raise `NoSession`, whatever the payload. -/
def Obligations.CommandsWithoutSessionFault : Prop :=
  ∀ s : State, s.err = 0#3 → s.phase = .idle →
    (∀ data, exec (.update data) s = .next { s with err := 2#3, resps := s.resps ++ [[0x02#8]] }) ∧
    exec .finalize s = .next { s with err := 2#3, resps := s.resps ++ [[0x02#8]] }

/-- 60 R163: on a finalized session UPDATE, the empty one too, and FINALIZE raise `ReuseAfterFinalize`; INIT and HASH
do not, they start a new session. -/
def Obligations.FinalizedSessionCannotBeReused : Prop :=
  ∀ s : State, s.err = 0#3 → s.phase = .finalized →
    (∀ data, exec (.update data) s = .next { s with err := 3#3, resps := s.resps ++ [[0x13#8]] }) ∧
    exec .finalize s = .next { s with err := 3#3, resps := s.resps ++ [[0x13#8]] } ∧
    (∀ seed, ∃ t, exec (.init seed) s = .next t ∧ t.err = 0#3 ∧ t.phase = .active) ∧
    ∀ seed data, data.length ≤ 2 ^ 64 - 2 →
      ∃ t, exec (.hash seed data) s = .next t ∧ t.err = 0#3 ∧ t.phase = .finalized

/-- 60 R164: an UPDATE that would carry `COUNT` past `MAX_INPUT = 2^64 - 2`, and a HASH of more bytes than that, raise
`LengthOverflow` before anything is written. -/
def Obligations.TooLongAStreamIsRejected : Prop :=
  (∀ (s : State) (data : List Byte), s.err = 0#3 → s.phase = .active →
    s.count.toNat + data.length > 2 ^ 64 - 2 →
    exec (.update data) s = .next { s with err := 4#3, resps := s.resps ++ [[0x0c#8]] }) ∧
  ∀ (s : State) (seed : Option V128) (data : List Byte), s.err = 0#3 → data.length > 2 ^ 64 - 2 →
    exec (.hash seed data) s =
      .next { s with err := 4#3, resps := s.resps ++ [[0#3 ++ phaseCode s.phase ++ 4#3]] }

/-! ### The session -/

/-- 43 R140: the phase after every command from every phase, the faults of the blank cells, and the reset event. -/
def Obligations.PhaseMovesAsTheTableSays : Prop :=
  (∀ (s t : State) (seed : Option V128), s.err = 0#3 → exec (.init seed) s = .next t → t.phase = .active) ∧
  (∀ (s t : State) (data : List Byte), s.err = 0#3 → exec (.update data) s = .next t →
    t.phase = s.phase ∧ (s.phase = .idle → t.err = 2#3) ∧ (s.phase = .finalized → t.err = 3#3)) ∧
  (∀ s t : State, s.err = 0#3 → exec .finalize s = .next t →
    (s.phase = .idle → t.phase = .idle ∧ t.err = 2#3) ∧ (s.phase = .active → t.phase = .finalized) ∧
    (s.phase = .finalized → t.phase = .finalized ∧ t.err = 3#3)) ∧
  (∀ (s t : State) (seed : Option V128) (data : List Byte), s.err = 0#3 → exec (.hash seed data) s = .next t →
    t.phase = if data.length ≤ 2 ^ 64 - 2 then .finalized else s.phase) ∧
  (∀ (s t : State) (rest : List HostEvent), s.cmds = .reset :: rest → step s = .next t → t.phase = .idle) ∧
  ∀ (s t : State) (i : Instr), s.err ≠ 0#3 → exec i s = .next t → t.phase = s.phase

/-- 43 R141: INIT, in every phase: `SEED`, the four lanes, `COUNT`, `PHASE`, the response, and nothing else; with a
fault latched, the response alone. -/
def Obligations.InitOpensASession : Prop :=
  (∀ (s : State) (seed : Option V128), s.err = 0#3 →
    let v := seed.getD zero128
    exec (.init seed) s = .next { s with
      seed := v
      lanes := ⟨v ^^^ Config.cfg.laneInit0, v ^^^ Config.cfg.laneInit1, v ^^^ Config.cfg.laneInit2,
        v ^^^ Config.cfg.laneInit3⟩
      count := 0#64
      phase := .active
      resps := s.resps ++ [[0x08#8]] }) ∧
  ∀ (s : State) (seed : Option V128), s.err ≠ 0#3 →
    exec (.init seed) s = .next { s with resps := s.resps ++ [[statusByte s]] }

/-- UPDATE completes (43 R142, 10_state R33): in an active session whose pending bytes are `pend`, it absorbs every
full super-block of `pend ++ data`, in order, keeps the rest pending, and counts the whole payload. -/
def Obligations.UpdateAbsorbsThePayload : Prop :=
  ∀ (s : State) (data pend : List Byte), s.err = 0#3 → s.phase = .active →
    s.count.toNat + data.length ≤ 2 ^ 64 - 2 → bufRead s.buf 0 (remainder s) = .ok pend →
    let stream := pend ++ data
    ∃ t, exec (.update data) s = .next t ∧
      t.lanes = absorbRun stream (stream.length / 64) 0 s.lanes ∧
      t.count.toNat = s.count.toNat + data.length ∧
      bufRead t.buf 0 (remainder t) = .ok (stream.drop (64 * (stream.length / 64))) ∧
      t.acc = s.acc ∧ t.seed = s.seed ∧ t.phase = .active ∧ t.err = 0#3 ∧ t.cmds = s.cmds ∧
      t.resps = s.resps ++ [[0x08#8]]

/-- What UPDATE stores, cell by cell, and its frame (43 R142, 20_memory R47): the top-up at the write pointer `R`, the
bytes left over at 0, every other cell as it was; the lanes stay when the buffer is not completed. -/
def Obligations.UpdateStoresCellByCell : Prop :=
  ∀ (s t : State) (data : List Byte), exec (.update data) s = .next t → t.err = 0#3 →
    let n := data.length
    let r := remainder s
    let k := if r > 0 then topUp r n else 0
    let q := k + 64 * fullBlocks n k
    let left := if r > 0 ∧ r + k < 64 then 0 else n - q
    (∀ a, t.buf.read a =
      if a < left then data[q + a]? else if r ≤ a ∧ a < r + k then data[a - r]? else s.buf.read a) ∧
    t.acc = s.acc ∧ t.seed = s.seed ∧ t.phase = s.phase ∧ t.cmds = s.cmds ∧
    (r + n < 64 → t.lanes = s.lanes)

/-- An empty UPDATE in an active session changes nothing (43 R142). -/
def Obligations.EmptyUpdateIsANoOp : Prop :=
  ∀ s : State, s.err = 0#3 → s.phase = .active → s.count.toNat ≤ 2 ^ 64 - 2 →
    exec (.update []) s = .next { s with resps := s.resps ++ [[0x08#8]] }

/-- FINALIZE completes on the short path (43 R143): fewer than 64 bytes counted, the small-key digest of the pending
bytes; only `ACC` and `PHASE` change. -/
def Obligations.FinalizeDigestsAShortSession : Prop :=
  ∀ (s : State) (d : List Byte), s.err = 0#3 → s.phase = .active → s.count.toNat < 64 →
    bufRead s.buf 0 s.count.toNat = .ok d →
    exec .finalize s = .next { s with
      acc := smallKey Config.cfg d s.seed
      phase := .finalized
      resps := s.resps ++ [0x10#8 :: bytesOf (smallKey Config.cfg d s.seed)] }

/-- FINALIZE completes on the long path (43 R143): the tail, the cross-lane mix, the reduction and one finishing round
on the live lanes; `COUNT`, `SEED` and `BUF` stay. -/
def Obligations.FinalizeDigestsALongSession : Prop :=
  ∀ (s : State) (d : List Byte), s.err = 0#3 → s.phase = .active → 64 ≤ s.count.toNat →
    bufRead s.buf 0 (s.count.toNat % 64) = .ok d →
    let l := tailL Config.cfg s.lanes d
    let x := l.l0 ^^^ l.l1 ^^^ l.l2 ^^^ l.l3
    let digest := mix (mix (mix (mix l.l0 x) (mix l.l1 x)) (mix (mix l.l2 x) (mix l.l3 x))) Config.cfg.k9k10
    exec .finalize s = .next { s with
      lanes := ⟨mix l.l0 x, mix l.l1 x, mix l.l2 x, mix l.l3 x⟩
      acc := digest
      phase := .finalized
      resps := s.resps ++ [0x10#8 :: bytesOf digest] }

/-- HASH completes, in every phase and over any buffer (42 R131, R132): the digest is `HYBRID(data, seed)`, and `SEED`,
`COUNT`, `PHASE`, the buffer and the lanes are left as INIT, UPDATE and FINALIZE leave them. -/
def Obligations.HashAnswersHybrid : Prop :=
  ∀ (s : State) (seed : Option V128) (data : List Byte), s.err = 0#3 → data.length ≤ 2 ^ 64 - 2 →
    ∃ t, exec (.hash seed data) s = .next t ∧
      t.acc = hybrid Config.cfg data (seed.getD zero128) ∧
      t.phase = .finalized ∧ t.err = 0#3 ∧ t.seed = seed.getD zero128 ∧ t.count.toNat = data.length ∧
      t.cmds = s.cmds ∧
      t.resps = s.resps ++ [0x10#8 :: bytesOf (hybrid Config.cfg data (seed.getD zero128))] ∧
      (∀ a, t.buf.read a =
        if a < data.length % 64 then data[64 * (data.length / 64) + a]? else s.buf.read a) ∧
      t.lanes =
        if data.length < 64 then laneInit Config.cfg (seed.getD zero128)
        else xLane (tailL Config.cfg (absorbRun data (data.length / 64) 0 (laneInit Config.cfg (seed.getD zero128)))
          (data.drop (64 * (data.length / 64))))

/-- INIT opens the session of the empty stream (43 R141, 10_state R33). -/
def Obligations.InitStartsTheEmptyStream : Prop :=
  ∀ (s : State) (seed : Option V128), s.err = 0#3 →
    ∃ t, exec (.init seed) s = .next t ∧ t.err = 0#3 ∧ Accepted Config.cfg (seed.getD zero128) [] t

/-- UPDATE keeps the invariants of a session (10_state R33): if the engine has accepted exactly `stream`, then after an
UPDATE that does not overflow it has accepted exactly `stream ++ data`. -/
def Obligations.UpdateExtendsTheStream : Prop :=
  ∀ (c : Cfg) (seed : V128) (stream data : List Byte) (s : State), s.err = 0#3 → Accepted c seed stream s →
    stream.length + data.length ≤ 2 ^ 64 - 2 →
    ∃ t, exec (.update data) s = .next t ∧ t.err = 0#3 ∧ Accepted c seed (stream ++ data) t

/-- FINALIZE of a session that has accepted `stream` answers `HYBRID(stream, seed)` (43 R143, R145). -/
def Obligations.FinalizeDigestsTheStream : Prop :=
  ∀ (seed : V128) (stream : List Byte) (s : State), s.err = 0#3 → Accepted Config.cfg seed stream s →
    ∃ t, exec .finalize s = .next t ∧ t.acc = hybrid Config.cfg stream seed ∧ t.phase = .finalized ∧
      t.resps = s.resps ++ [0x10#8 :: bytesOf (hybrid Config.cfg stream seed)]

/-- 43 R145, chunking invariance: from any state with no fault latched, INIT, one UPDATE per chunk (empty ones
allowed) and FINALIZE answer `HYBRID` of the joined chunks, and end, up to stale cells and the responses sent on the
way, in the state HASH of the joined chunks ends in. -/
def Obligations.ChunkBoundariesDoNotMatter : Prop :=
  ∀ (s : State) (seed : Option V128) (chunks : List (List Byte)), s.err = 0#3 →
    chunks.flatten.length ≤ 2 ^ 64 - 2 →
    ∃ t u,
      runCommands (.init seed :: (chunks.map .update ++ [.finalize])) s = .next t ∧
      exec (.hash seed chunks.flatten) s = .next u ∧
      t.acc = hybrid Config.cfg chunks.flatten (seed.getD zero128) ∧
      t.resps.getLast? = some (0x10#8 :: bytesOf (hybrid Config.cfg chunks.flatten (seed.getD zero128))) ∧
      SameUpToStale { u with resps := [] } { t with resps := [] }

/-- 10_state R33 item 5: states that differ only in buffer cells at index `R` or above cannot be told apart: from two
such states every run of the same events sends the same responses and ends in two such states. -/
def Obligations.StaleCellsCannotBeObserved : Prop :=
  ∀ (n : Nat) (s t s' : State), SameUpToStale s t → Host.Core.run Sys2Proof.core n s = .next s' →
    ∃ t', Host.Core.run Sys2Proof.core n t = .next t' ∧ SameUpToStale s' t'

/-- The writes of the access matrix (10_state R32, R22, R23): what each command, faulting or not, leaves as it was. -/
def Obligations.CommandsWriteOnlyTheirState : Prop :=
  ∀ (i : Instr) (s t : State), exec i s = .next t →
    t.cmds = s.cmds ∧
    (match i with
    | .init _ => t.acc = s.acc ∧ t.buf = s.buf ∧ t.err = s.err
    | .update _ => t.acc = s.acc ∧ t.seed = s.seed ∧ t.phase = s.phase
    | .finalize =>
      t.seed = s.seed ∧ t.count = s.count ∧ t.buf = s.buf ∧ (s.count.toNat < 64 → t.lanes = s.lanes)
    | .hash _ _ => True) ∧
    (t.err ≠ s.err → registers t = registers { s with err := t.err } ∧ t.buf = s.buf)

/-- `COUNT` arithmetic (43 R144, 10_state R24): an UPDATE that does not fault adds the payload's length over the
naturals, one that faults leaves `COUNT`, and from a legal count the reserved value is never stored. -/
def Obligations.CounterAddsAndNeverWraps : Prop :=
  ∀ (s t : State) (data : List Byte), s.count.toNat ≤ 2 ^ 64 - 2 → exec (.update data) s = .next t →
    (t.err = 0#3 → t.count.toNat = s.count.toNat + data.length) ∧ (t.err ≠ 0#3 → t.count = s.count) ∧
    t.count.toNat ≤ 2 ^ 64 - 2 ∧ t.count ≠ sentinel
end

