-- ==== Sys2Proof/Laws/Bytes.lean ====
section
/-! SUPPORT. Lemmas of Machine/Operands.lean: bytes of vector values, slices, the length field. -/

namespace Sys2Proof.Machine

open Sys2Proof

/-! ### Bytes of vector values -/

theorem byteOf_getLsbD (v : V128) (j i : Nat) :
    (byteOf v j).getLsbD i = (decide (i < 8) && v.getLsbD (8 * j + i)) := by
  simp [byteOf]

theorem extractLsb'_append_byte (w : Nat) (x : BitVec w) (b : Byte) :
    (x ++ b).extractLsb' (8 * 0) 8 = b := by
  apply BitVec.eq_of_getLsbD_eq
  intro i hi
  simp [BitVec.getLsbD_append, hi]

theorem extractLsb'_append_byte_succ (w : Nat) (x : BitVec w) (b : Byte) (k : Nat) :
    (x ++ b).extractLsb' (8 * (k + 1)) 8 = x.extractLsb' (8 * k) 8 := by
  apply BitVec.eq_of_getLsbD_eq
  intro i hi
  rw [BitVec.getLsbD_extractLsb', BitVec.getLsbD_extractLsb', BitVec.getLsbD_append, if_neg (by omega),
    show 8 * (k + 1) + i - 8 = 8 * k + i by omega]

/-- The sixteen bytes of a value are the ones it was made of. -/
@[simp] theorem byteOf_ofBytes (f : Nat → Byte) {j : Nat} (h : j < 16) : byteOf (ofBytes f) j = f j := by
  unfold byteOf ofBytes
  have hj : j = 0 ∨ j = 1 ∨ j = 2 ∨ j = 3 ∨ j = 4 ∨ j = 5 ∨ j = 6 ∨ j = 7 ∨ j = 8 ∨ j = 9 ∨ j = 10 ∨
      j = 11 ∨ j = 12 ∨ j = 13 ∨ j = 14 ∨ j = 15 := by omega
  rcases hj with rfl | rfl | rfl | rfl | rfl | rfl | rfl | rfl | rfl | rfl | rfl | rfl | rfl | rfl | rfl | rfl <;>
    (repeat rw [extractLsb'_append_byte_succ]) <;>
    first
      | exact extractLsb'_append_byte _ _ _
      | exact BitVec.extractLsb'_eq_self

/-- A vector value is its sixteen bytes (00_scope R9). -/
theorem eq_of_byteOf_eq {a b : V128} (h : ∀ j < 16, byteOf a j = byteOf b j) : a = b := by
  apply BitVec.eq_of_getLsbD_eq
  intro i hi
  have hb := congrArg (fun x : Byte => x.getLsbD (i % 8)) (h (i / 8) (by omega))
  have h8 : i % 8 < 8 := by omega
  have hm : 8 * (i / 8) + i % 8 = i := by omega
  simpa only [byteOf_getLsbD, h8, hm, decide_true, Bool.true_and] using hb

@[simp] theorem byteOf_xor (a b : V128) (j : Nat) : byteOf (a ^^^ b) j = byteOf a j ^^^ byteOf b j := by
  simp [byteOf, BitVec.extractLsb'_xor]

@[simp] theorem byteOf_zero (j : Nat) : byteOf (0#128) j = 0#8 := by
  simp [byteOf]

@[simp] theorem ofBytes_byteOf (v : V128) : ofBytes (byteOf v) = v :=
  eq_of_byteOf_eq fun _ h => byteOf_ofBytes _ h

/-- Two byte functions that agree on `0..15` make the same value. -/
theorem ofBytes_congr {f g : Nat → Byte} (h : ∀ j < 16, f j = g j) : ofBytes f = ofBytes g :=
  eq_of_byteOf_eq fun j hj => by rw [byteOf_ofBytes f hj, byteOf_ofBytes g hj, h j hj]

@[simp] theorem bytesOf_length (v : V128) : (bytesOf v).length = 16 := by
  simp [bytesOf]

theorem bytesOf_getElem? (v : V128) {j : Nat} (h : j < 16) : (bytesOf v)[j]? = some (byteOf v j) := by
  simp [bytesOf, h]

theorem byteOf_load16 (s : List Byte) {j : Nat} (h : j < 16) : byteOf (load16 s) j = s.getD j 0 := by
  simp [load16, h]

/-- The digest or seed bytes read back as the value (20_memory R41). -/
@[simp] theorem load16_bytesOf (v : V128) : load16 (bytesOf v) = v :=
  eq_of_byteOf_eq fun j hj => by
    rw [byteOf_load16 _ hj, List.getD_eq_getElem?_getD, bytesOf_getElem? v hj, Option.getD_some]

/-- `load16` loses nothing of sixteen bytes (20_memory R41). -/
theorem bytesOf_load16 {s : List Byte} (h : s.length = 16) : bytesOf (load16 s) = s := by
  apply List.ext_getElem?
  intro j
  by_cases hj : j < 16
  · rw [bytesOf_getElem? _ hj, byteOf_load16 _ hj, List.getD_eq_getElem?_getD,
      List.getElem?_eq_getElem (by omega), Option.getD_some]
  · rw [List.getElem?_eq_none (by simp; omega), List.getElem?_eq_none (by omega)]

theorem load16_append (s t : List Byte) (h : s.length = 16) : load16 (s ++ t) = load16 s :=
  eq_of_byteOf_eq fun j hj => by
    rw [byteOf_load16 _ hj, byteOf_load16 _ hj, List.getD_append _ _ _ _ (by omega)]

/-! ### Slices -/

theorem slice_length (s : List Byte) (i n : Nat) : (slice s i n).length = min n (s.length - i) := by
  simp [slice]

/-- Inside its bounds a slice has the length asked for (20_memory R46). -/
theorem slice_length_of_le {s : List Byte} {i n : Nat} (h : i + n ≤ s.length) : (slice s i n).length = n := by
  rw [slice_length]; omega

theorem slice_getElem? (s : List Byte) (i n j : Nat) :
    (slice s i n)[j]? = if j < n then s[i + j]? else none := by
  simp [slice, List.getElem?_take]

@[simp] theorem slice_zero_length (s : List Byte) (i : Nat) : slice s i 0 = [] := by
  simp [slice]

@[simp] theorem slice_all (s : List Byte) : slice s 0 s.length = s := by
  simp [slice]

theorem slice_to_end (s : List Byte) (i : Nat) : slice s i (s.length - i) = s.drop i := by
  simp [slice]

theorem slice_append_right (s t : List Byte) (i n : Nat) (h : s.length ≤ i) :
    slice (s ++ t) i n = slice t (i - s.length) n := by
  simp [slice, List.drop_append, List.drop_eq_nil_of_le h]

theorem slice_append_left (s t : List Byte) (i n : Nat) (h : i + n ≤ s.length) :
    slice (s ++ t) i n = slice s i n := by
  apply List.ext_getElem?
  intro j
  rw [slice_getElem?, slice_getElem?]
  split
  · rw [List.getElem?_append_left (by omega)]
  · rfl

/-- A slice of a slice, inside its bounds. -/
theorem slice_slice (s : List Byte) (i n j m : Nat) (h : j + m ≤ n) :
    slice (slice s i n) j m = slice s (i + j) m := by
  apply List.ext_getElem?
  intro k
  simp only [slice_getElem?]
  by_cases hk : k < m
  · simp [hk, show j + k < n by omega, Nat.add_assoc]
  · simp [hk]

/-! ### The length field -/

@[simp] theorem le64Bytes_length (n : Nat) : (le64Bytes n).length = 8 := by
  simp [le64Bytes]

/-- Eight bytes hold a length below `2^64`, least significant first (30_encoding R66). -/
theorem le64_le64Bytes {n : Nat} (h : n < 2 ^ 64) : le64 (le64Bytes n) = n := by
  simp only [le64Bytes, List.range_succ, List.range_zero, List.nil_append, List.cons_append, List.map_cons,
    List.map_nil, le64, BitVec.toNat_ofNat, Nat.shiftRight_eq_div_pow]
  omega

theorem le64_lt (s : List Byte) : le64 s < 256 ^ s.length := by
  induction s with
  | nil => simp [le64]
  | cons b s ih =>
    have hb := b.isLt
    simp only [le64, List.length_cons, pow_succ]
    omega

/-- Eight bytes are the length field of the number they spell. -/
theorem le64Bytes_le64 {s : List Byte} (h : s.length = 8) : le64Bytes (le64 s) = s := by
  match s, h with
  | [a, b, c, d, e, f, g, i], _ =>
    have ha := a.isLt; have hb := b.isLt; have hc := c.isLt; have hd := d.isLt
    have he := e.isLt; have hf := f.isLt; have hg := g.isLt; have hi := i.isLt
    simp only [le64Bytes, le64, List.range_succ, List.range_zero, List.nil_append, List.cons_append, List.map_cons,
      List.map_nil, Nat.shiftRight_eq_div_pow]
    refine List.cons_eq_cons.2 ⟨?_, List.cons_eq_cons.2 ⟨?_, List.cons_eq_cons.2 ⟨?_, List.cons_eq_cons.2 ⟨?_,
      List.cons_eq_cons.2 ⟨?_, List.cons_eq_cons.2 ⟨?_, List.cons_eq_cons.2 ⟨?_, List.cons_eq_cons.2 ⟨?_, rfl⟩⟩⟩⟩⟩⟩⟩⟩ <;>
    · apply BitVec.eq_of_toNat_eq
      rw [BitVec.toNat_ofNat]
      omega

end Sys2Proof.Machine
end

