-- ==== Sys2Proof/Laws/Memory.lean ====
section
/-! SUPPORT. Lemmas of the buffer operations of Machine/Ops.lean: read after write, the canonical form, and what
`BufRead` and `BufWrite` do inside their bounds (20_memory R46). -/

namespace Sys2Proof.Machine

open Sys2Proof

/-! ### One cell -/

@[simp] theorem Memory.read_nil (a : Nat) : Memory.read [] a = none := rfl

/-- A cell reads as the latest byte written to it, every other cell as before (20_memory R50). -/
theorem Memory.read_write (m : Memory) (a : Nat) (v : Byte) (b : Nat) :
    (m.write a v).read b = if b = a then some v else m.read b := by
  induction m with
  | nil => rfl
  | cons c m ih =>
    obtain ⟨k, w⟩ := c
    by_cases h1 : a < k
    · simp [Memory.write, h1, Memory.read]
    · by_cases h2 : a = k
      · subst h2
        by_cases h3 : b = a <;> simp [Memory.write, Memory.read, h3]
      · by_cases h3 : b = k
        · subst h3; simp [Memory.write, h1, h2, Memory.read, Ne.symm h2]
        · simp [Memory.write, h1, h2, Memory.read, h3, ih]

theorem Memory.mem_write {m : Memory} {a : Nat} {v : Byte} {c : Host.Cell} (h : c ∈ m.write a v) :
    c = (a, v) ∨ c ∈ m := by
  induction m with
  | nil => simpa [Memory.write] using h
  | cons d m ih =>
    obtain ⟨k, w⟩ := d
    by_cases h1 : a < k
    · simpa [Memory.write, h1] using h
    · by_cases h2 : a = k
      · simp only [Memory.write, h2, if_true, if_false, lt_irrefl, List.mem_cons] at h
        rcases h with h | h
        · exact .inl (by rw [h, h2])
        · exact .inr (List.mem_cons_of_mem _ h)
      · simp only [Memory.write, h1, h2, if_false, List.mem_cons] at h
        rcases h with h | h
        · exact .inr (by simp [h])
        · exact (ih h).imp id (List.mem_cons_of_mem _)

/-- A write keeps the canonical form. -/
theorem Memory.write_wf {m : Memory} {a : Nat} (v : Byte) (ha : a < 64) (h : Memory.wf m) :
    Memory.wf (m.write a v) := by
  obtain ⟨hs, hb⟩ := h
  refine ⟨?_, fun c hc => (Memory.mem_write hc).elim (fun e => by rw [e]; exact ha) (hb c)⟩
  clear hb
  induction m with
  | nil => simp [Memory.write]
  | cons d m ih =>
    obtain ⟨k, w⟩ := d
    rw [List.pairwise_cons] at hs
    by_cases h1 : a < k
    · simp only [Memory.write, h1, if_true, List.pairwise_cons]
      refine ⟨fun c hc => ?_, hs⟩
      rcases List.mem_cons.1 hc with rfl | hc
      · exact h1
      · exact h1.trans (hs.1 c hc)
    · by_cases h2 : a = k
      · subst h2
        simpa [Memory.write] using hs
      · simp only [Memory.write, h1, h2, if_false, List.pairwise_cons]
        refine ⟨fun c hc => ?_, ih hs.2⟩
        rcases Memory.mem_write hc with rfl | hc
        · show k < a
          omega
        · exact hs.1 c hc

theorem Memory.reset_wf : Memory.wf State.reset.buf := by decide

/-! ### Runs of cells -/

theorem read_writeCells (s : List Byte) (m : Memory) (i b : Nat) :
    (writeCells m i s).read b = if i ≤ b ∧ b < i + s.length then s[b - i]? else m.read b := by
  induction s generalizing m i with
  | nil => simp [writeCells]
  | cons v s ih =>
    rw [writeCells, ih, Memory.read_write]
    by_cases h1 : b = i
    · subst h1; simp
    · by_cases h2 : i + 1 ≤ b ∧ b < i + 1 + s.length
      · rw [if_pos h2, if_pos (by simp; omega), show b - i = (b - (i + 1)) + 1 by omega, List.getElem?_cons_succ]
      · rw [if_neg h2, if_neg h1, if_neg (by simp; omega)]

theorem writeCells_wf {s : List Byte} {m : Memory} {i : Nat} (h : i + s.length ≤ 64) (hm : Memory.wf m) :
    Memory.wf (writeCells m i s) := by
  induction s generalizing m i with
  | nil => exact hm
  | cons v s ih =>
    simp only [List.length_cons] at h
    exact ih (by omega) (Memory.write_wf v (by omega) hm)

/-- Cells that all hold the bytes of `d` read as `d`. -/
theorem readCells_eq_ok {m : Memory} {d : List Byte} {i : Nat} (h : ∀ j < d.length, m.read (i + j) = d[j]?) :
    readCells m i d.length = .ok d := by
  induction d generalizing i with
  | nil => rfl
  | cons v d ih =>
    have h0 := h 0 (by simp)
    simp only [Nat.add_zero, List.getElem?_cons_zero] at h0
    have h1 : readCells m (i + 1) d.length = .ok d := ih fun j hj => by
      have := h (j + 1) (by simpa using hj)
      rwa [List.getElem?_cons_succ, show i + (j + 1) = i + 1 + j by omega] at this
    simp [readCells, h0, h1, Except.map]

/-- What a successful read answers: as many bytes as asked for, each the cell's. -/
theorem readCells_ok {m : Memory} {n i : Nat} {d : List Byte} (h : readCells m i n = .ok d) :
    d.length = n ∧ ∀ j < n, m.read (i + j) = d[j]? := by
  induction n generalizing i d with
  | zero => cases h; simp
  | succ n ih =>
    rw [readCells] at h
    cases hb : m.read i with
    | none => simp [hb] at h
    | some b =>
      cases hr : readCells m (i + 1) n with
      | error f => simp [hb, hr, Except.map] at h
      | ok e =>
        simp only [hb, hr, Except.map, Except.ok.injEq] at h
        subst h
        obtain ⟨hl, hc⟩ := ih hr
        refine ⟨by simp [hl], fun j hj => ?_⟩
        cases j with
        | zero => simpa using hb
        | succ j =>
          rw [List.getElem?_cons_succ, ← hc j (by omega), show i + (j + 1) = i + 1 + j by omega]

/-- Cells that all hold a value read without a fault. -/
theorem readCells_of_isSome {m : Memory} {n i : Nat} (h : ∀ j < n, (m.read (i + j)).isSome = true) :
    ∃ d, readCells m i n = .ok d := by
  induction n generalizing i with
  | zero => exact ⟨[], rfl⟩
  | succ n ih =>
    obtain ⟨b, hb⟩ := Option.isSome_iff_exists.1 (h 0 (by omega))
    obtain ⟨e, he⟩ := ih (i := i + 1) fun j hj => by
      have := h (j + 1) (by omega)
      rwa [show i + (j + 1) = i + 1 + j by omega] at this
    exact ⟨b :: e, by rw [readCells]; simp only [Nat.add_zero] at hb; simp [hb, he, Except.map]⟩

/-- Two memories that agree on the cells read give the same answer, fault or not. -/
theorem readCells_congr {m m' : Memory} {n i : Nat} (h : ∀ j < n, m.read (i + j) = m'.read (i + j)) :
    readCells m i n = readCells m' i n := by
  induction n generalizing i with
  | zero => rfl
  | succ n ih =>
    have h0 := h 0 (by omega)
    rw [Nat.add_zero] at h0
    rw [readCells, readCells, h0, ih (i := i + 1) fun j hj => by
      have := h (j + 1) (by omega)
      rwa [show i + (j + 1) = i + 1 + j by omega] at this]

/-! ### `BufRead` and `BufWrite` -/

theorem bufRead_eq {m : Memory} {i n : Nat} (h : i + n ≤ 64) : bufRead m i n = readCells m i n := by
  simp [bufRead, h]

/-- What `BufRead` does when it answers (20_memory R46). -/
theorem bufRead_ok {m : Memory} {i n : Nat} {d : List Byte} (h : bufRead m i n = .ok d) :
    i + n ≤ 64 ∧ d.length = n ∧ ∀ j < n, m.read (i + j) = d[j]? := by
  rw [bufRead] at h
  split at h
  · exact ⟨‹_›, readCells_ok h⟩
  · cases h

theorem bufRead_eq_ok {m : Memory} {d : List Byte} {i n : Nat} (hn : d.length = n) (hi : i + n ≤ 64)
    (h : ∀ j < n, m.read (i + j) = d[j]?) : bufRead m i n = .ok d := by
  subst hn
  rw [bufRead_eq hi, readCells_eq_ok h]

/-- `BufWrite` answers inside its bounds (20_memory R46). -/
theorem bufWrite_eq {m : Memory} {i : Nat} {s : List Byte} (h : i + s.length ≤ 64) :
    bufWrite m i s = .ok (writeCells m i s) := by
  simp [bufWrite, h]

/-- What `BufWrite` does when it answers: the cells named take the bytes, every other cell stays, and the canonical
form is kept (20_memory R46). -/
theorem bufWrite_ok {m m' : Memory} {i : Nat} {s : List Byte} (h : bufWrite m i s = .ok m') :
    i + s.length ≤ 64 ∧ (∀ b, m'.read b = if i ≤ b ∧ b < i + s.length then s[b - i]? else m.read b) ∧
      (Memory.wf m → Memory.wf m') := by
  rw [bufWrite] at h
  split at h
  · cases h
    exact ⟨‹_›, read_writeCells s m i, writeCells_wf ‹_›⟩
  · cases h

end Sys2Proof.Machine
end

