-- ==== Sys2Proof/Laws/OneShot.lean ====
section
/-! SUPPORT. Lemmas of the bulk loop (42_oneshot R125, R129) and of the tail units (00_scope R10). -/

namespace Sys2Proof.Machine

open Sys2Proof

/-! ### The bulk loop -/

/-- A run of super-blocks is a run of the first ones and then of the others. -/
theorem absorbRun_add (data : List Byte) (m n p : Nat) (l : Lanes) :
    absorbRun data (m + n) p l = absorbRun data n (p + 64 * m) (absorbRun data m p l) := by
  induction m generalizing p l with
  | zero => simp [absorbRun]
  | succ m ih =>
    rw [show m + 1 + n = (m + n) + 1 by omega, absorbRun, absorbRun, ih,
      show p + 64 + 64 * m = p + 64 * (m + 1) by omega]

/-- Super-blocks that lie in the first part of a stream do not see the second. -/
theorem absorbRun_append_left (s t : List Byte) (n p : Nat) (l : Lanes) (h : p + 64 * n ≤ s.length) :
    absorbRun (s ++ t) n p l = absorbRun s n p l := by
  induction n generalizing p l with
  | zero => rfl
  | succ n ih => rw [absorbRun, absorbRun, slice_append_left _ _ _ _ (by omega), ih _ _ (by omega)]

/-- Super-blocks that lie in the second part of a stream do not see the first. -/
theorem absorbRun_append_right (s t : List Byte) (n p : Nat) (l : Lanes) (h : s.length ≤ p) :
    absorbRun (s ++ t) n p l = absorbRun t n (p - s.length) l := by
  induction n generalizing p l with
  | zero => rfl
  | succ n ih =>
    rw [absorbRun, absorbRun, slice_append_right _ _ _ _ h, ih _ _ (by omega),
      show p + 64 - s.length = p - s.length + 64 by omega]

/-- One super-block that stands at the head of a stream. -/
theorem absorbRun_one (blk : List Byte) (l : Lanes) (h : blk.length = 64) :
    absorbRun blk 1 0 l = absorb64 l blk := by
  rw [absorbRun, absorbRun, slice, List.drop_zero, List.take_of_length_le (by omega)]

/-! ### Tail units -/

/-- The bit of weight `2^k` of `r` (00_scope R10). -/
theorem unitPresent_two_pow (r k : Nat) : unitPresent r (2 ^ k) = r.testBit k := by
  rw [unitPresent, Nat.and_two_pow]
  cases r.testBit k <;> simp

end Sys2Proof.Machine
end

