-- ==== Sys2Proof/Laws/State.lean ====
section
/-! SUPPORT. The field of every named state update of Machine/Ops.lean and Machine/Session.lean, one lemma per field,
so that no proof unfolds a record update. -/

namespace Sys2Proof.Machine

open Sys2Proof

/-! ### `send` -/

@[simp] theorem send_lanes (p : List Byte) (s : State) : (send p s).lanes = s.lanes := rfl
@[simp] theorem send_acc (p : List Byte) (s : State) : (send p s).acc = s.acc := rfl
@[simp] theorem send_seed (p : List Byte) (s : State) : (send p s).seed = s.seed := rfl
@[simp] theorem send_count (p : List Byte) (s : State) : (send p s).count = s.count := rfl
@[simp] theorem send_buf (p : List Byte) (s : State) : (send p s).buf = s.buf := rfl
@[simp] theorem send_phase (p : List Byte) (s : State) : (send p s).phase = s.phase := rfl
@[simp] theorem send_err (p : List Byte) (s : State) : (send p s).err = s.err := rfl
@[simp] theorem send_cmds (p : List Byte) (s : State) : (send p s).cmds = s.cmds := rfl
@[simp] theorem send_resps (p : List Byte) (s : State) : (send p s).resps = s.resps ++ [p] := rfl

/-! ### `respondStatus` -/

@[simp] theorem respondStatus_lanes (s : State) : (respondStatus s).lanes = s.lanes := rfl
@[simp] theorem respondStatus_acc (s : State) : (respondStatus s).acc = s.acc := rfl
@[simp] theorem respondStatus_seed (s : State) : (respondStatus s).seed = s.seed := rfl
@[simp] theorem respondStatus_count (s : State) : (respondStatus s).count = s.count := rfl
@[simp] theorem respondStatus_buf (s : State) : (respondStatus s).buf = s.buf := rfl
@[simp] theorem respondStatus_phase (s : State) : (respondStatus s).phase = s.phase := rfl
@[simp] theorem respondStatus_err (s : State) : (respondStatus s).err = s.err := rfl
@[simp] theorem respondStatus_cmds (s : State) : (respondStatus s).cmds = s.cmds := rfl
@[simp] theorem respondStatus_resps (s : State) : (respondStatus s).resps = s.resps ++ [[statusByte s]] := rfl

/-! ### `respondDigest` -/

@[simp] theorem respondDigest_lanes (s : State) : (respondDigest s).lanes = s.lanes := rfl
@[simp] theorem respondDigest_acc (s : State) : (respondDigest s).acc = s.acc := rfl
@[simp] theorem respondDigest_seed (s : State) : (respondDigest s).seed = s.seed := rfl
@[simp] theorem respondDigest_count (s : State) : (respondDigest s).count = s.count := rfl
@[simp] theorem respondDigest_buf (s : State) : (respondDigest s).buf = s.buf := rfl
@[simp] theorem respondDigest_phase (s : State) : (respondDigest s).phase = s.phase := rfl
@[simp] theorem respondDigest_err (s : State) : (respondDigest s).err = s.err := rfl
@[simp] theorem respondDigest_cmds (s : State) : (respondDigest s).cmds = s.cmds := rfl
@[simp] theorem respondDigest_resps (s : State) : (respondDigest s).resps = s.resps ++ [statusByte s :: bytesOf s.acc] := rfl

/-! ### `refuse` -/

@[simp] theorem refuse_lanes (s : State) : (refuse s).lanes = s.lanes := rfl
@[simp] theorem refuse_acc (s : State) : (refuse s).acc = s.acc := rfl
@[simp] theorem refuse_seed (s : State) : (refuse s).seed = s.seed := rfl
@[simp] theorem refuse_count (s : State) : (refuse s).count = s.count := rfl
@[simp] theorem refuse_buf (s : State) : (refuse s).buf = s.buf := rfl
@[simp] theorem refuse_phase (s : State) : (refuse s).phase = s.phase := rfl
@[simp] theorem refuse_err (s : State) : (refuse s).err = s.err := rfl
@[simp] theorem refuse_cmds (s : State) : (refuse s).cmds = s.cmds := rfl
@[simp] theorem refuse_resps (s : State) : (refuse s).resps = s.resps ++ [[statusByte s]] := rfl

/-! ### `resetEvent` -/

@[simp] theorem resetEvent_lanes (s : State) : (resetEvent s).lanes = State.reset.lanes := rfl
@[simp] theorem resetEvent_acc (s : State) : (resetEvent s).acc = State.reset.acc := rfl
@[simp] theorem resetEvent_seed (s : State) : (resetEvent s).seed = State.reset.seed := rfl
@[simp] theorem resetEvent_count (s : State) : (resetEvent s).count = State.reset.count := rfl
@[simp] theorem resetEvent_buf (s : State) : (resetEvent s).buf = State.reset.buf := rfl
@[simp] theorem resetEvent_phase (s : State) : (resetEvent s).phase = State.reset.phase := rfl
@[simp] theorem resetEvent_err (s : State) : (resetEvent s).err = State.reset.err := rfl
@[simp] theorem resetEvent_cmds (s : State) : (resetEvent s).cmds = s.cmds := rfl
@[simp] theorem resetEvent_resps (s : State) : (resetEvent s).resps = s.resps := rfl

/-! ### `offerPacket` -/

@[simp] theorem offerPacket_lanes (p : List Byte) (s : State) : (offerPacket p s).lanes = s.lanes := rfl
@[simp] theorem offerPacket_acc (p : List Byte) (s : State) : (offerPacket p s).acc = s.acc := rfl
@[simp] theorem offerPacket_seed (p : List Byte) (s : State) : (offerPacket p s).seed = s.seed := rfl
@[simp] theorem offerPacket_count (p : List Byte) (s : State) : (offerPacket p s).count = s.count := rfl
@[simp] theorem offerPacket_buf (p : List Byte) (s : State) : (offerPacket p s).buf = s.buf := rfl
@[simp] theorem offerPacket_phase (p : List Byte) (s : State) : (offerPacket p s).phase = s.phase := rfl
@[simp] theorem offerPacket_err (p : List Byte) (s : State) : (offerPacket p s).err = s.err := rfl
@[simp] theorem offerPacket_cmds (p : List Byte) (s : State) : (offerPacket p s).cmds = .packet p :: s.cmds := rfl
@[simp] theorem offerPacket_resps (p : List Byte) (s : State) : (offerPacket p s).resps = s.resps := rfl

/-! ### `openSession` -/

@[simp] theorem openSession_lanes (c : Cfg) (v : V128) (s : State) : (openSession c v s).lanes = laneInit c v := rfl
@[simp] theorem openSession_acc (c : Cfg) (v : V128) (s : State) : (openSession c v s).acc = s.acc := rfl
@[simp] theorem openSession_seed (c : Cfg) (v : V128) (s : State) : (openSession c v s).seed = v := rfl
@[simp] theorem openSession_count (c : Cfg) (v : V128) (s : State) : (openSession c v s).count = 0#64 := rfl
@[simp] theorem openSession_buf (c : Cfg) (v : V128) (s : State) : (openSession c v s).buf = s.buf := rfl
@[simp] theorem openSession_phase (c : Cfg) (v : V128) (s : State) : (openSession c v s).phase = .active := rfl
@[simp] theorem openSession_err (c : Cfg) (v : V128) (s : State) : (openSession c v s).err = s.err := rfl
@[simp] theorem openSession_cmds (c : Cfg) (v : V128) (s : State) : (openSession c v s).cmds = s.cmds := rfl
@[simp] theorem openSession_resps (c : Cfg) (v : V128) (s : State) : (openSession c v s).resps = s.resps := rfl

/-! ### `latch` and `raise`: only `ERR` depends on the case -/

@[simp] theorem latch_lanes (f : EngineFault) (s : State) : (latch f s).lanes = s.lanes := by
  unfold latch; split <;> rfl

@[simp] theorem latch_acc (f : EngineFault) (s : State) : (latch f s).acc = s.acc := by
  unfold latch; split <;> rfl

@[simp] theorem latch_seed (f : EngineFault) (s : State) : (latch f s).seed = s.seed := by
  unfold latch; split <;> rfl

@[simp] theorem latch_count (f : EngineFault) (s : State) : (latch f s).count = s.count := by
  unfold latch; split <;> rfl

@[simp] theorem latch_buf (f : EngineFault) (s : State) : (latch f s).buf = s.buf := by
  unfold latch; split <;> rfl

@[simp] theorem latch_phase (f : EngineFault) (s : State) : (latch f s).phase = s.phase := by
  unfold latch; split <;> rfl

@[simp] theorem latch_cmds (f : EngineFault) (s : State) : (latch f s).cmds = s.cmds := by
  unfold latch; split <;> rfl

@[simp] theorem latch_resps (f : EngineFault) (s : State) : (latch f s).resps = s.resps := by
  unfold latch; split <;> rfl

/-- `ERR` takes the code when it is 0 and keeps its value otherwise (10_state R28). -/
@[simp] theorem latch_err (f : EngineFault) (s : State) :
    (latch f s).err = if s.err = 0#3 then faultCode f else s.err := by
  unfold latch; split <;> simp_all

@[simp] theorem raise_lanes (f : EngineFault) (s : State) : (raise f s).lanes = s.lanes := by
  simp [raise]

@[simp] theorem raise_acc (f : EngineFault) (s : State) : (raise f s).acc = s.acc := by
  simp [raise]

@[simp] theorem raise_seed (f : EngineFault) (s : State) : (raise f s).seed = s.seed := by
  simp [raise]

@[simp] theorem raise_count (f : EngineFault) (s : State) : (raise f s).count = s.count := by
  simp [raise]

@[simp] theorem raise_buf (f : EngineFault) (s : State) : (raise f s).buf = s.buf := by
  simp [raise]

@[simp] theorem raise_phase (f : EngineFault) (s : State) : (raise f s).phase = s.phase := by
  simp [raise]

@[simp] theorem raise_cmds (f : EngineFault) (s : State) : (raise f s).cmds = s.cmds := by
  simp [raise]

@[simp] theorem raise_err (f : EngineFault) (s : State) :
    (raise f s).err = if s.err = 0#3 then faultCode f else s.err := by
  simp [raise]

@[simp] theorem raise_resps (f : EngineFault) (s : State) :
    (raise f s).resps = s.resps ++ [[statusByte (latch f s)]] := by
  simp [raise]

/-! ### The status byte sees `PHASE` and `ERR` only -/

/-- The status byte of two states with the same `PHASE` and `ERR` is the same (10_state R29). -/
theorem statusByte_congr {s t : State} (hp : s.phase = t.phase) (he : s.err = t.err) :
    statusByte s = statusByte t := by
  simp [statusByte, hp, he]

@[simp] theorem statusByte_setCmds (s : State) (l : List HostEvent) :
    statusByte { s with cmds := l } = statusByte s := rfl

@[simp] theorem remainder_setCmds (s : State) (l : List HostEvent) :
    remainder { s with cmds := l } = remainder s := rfl

/-! ### `State.reset` -/

@[simp] theorem reset_count : State.reset.count = 0#64 := rfl
@[simp] theorem reset_buf : State.reset.buf = [] := rfl
@[simp] theorem reset_phase : State.reset.phase = .idle := rfl
@[simp] theorem reset_err : State.reset.err = 0#3 := rfl
@[simp] theorem reset_cmds : State.reset.cmds = [] := rfl
@[simp] theorem reset_resps : State.reset.resps = [] := rfl

end Sys2Proof.Machine
end

