-- ==== Sys2Proof/Laws/Ops.lean ====
section
/-! SUPPORT. What each shared operation can do, said once (the provers cite these instead of unfolding). -/

namespace Sys2Proof.Machine

open Sys2Proof

/-! ### Guards, fault entry, results -/

theorem faulted_eq_false {s : State} : faulted s = false ↔ s.err = 0#3 := by
  simp [faulted]

theorem faulted_eq_true {s : State} : faulted s = true ↔ s.err ≠ 0#3 := by
  simp [faulted]

theorem unlessFaulted_of_err {s : State} {run : State → Host.Outcome State Fault Refusal} (h : s.err ≠ 0#3) :
    unlessFaulted s run = .next (respondStatus s) := by
  simp [unlessFaulted, faulted_eq_true.2 h, refuse]

theorem unlessFaulted_of_ok {s : State} {run : State → Host.Outcome State Fault Refusal} (h : s.err = 0#3) :
    unlessFaulted s run = run s := by
  simp [unlessFaulted, faulted_eq_false.2 h]

/-- Fault entry on an engine with no fault latched (60 R166). -/
theorem raise_of_ok (f : EngineFault) {s : State} (h : s.err = 0#3) :
    raise f s = respondStatus { s with err := faultCode f } := by
  simp [raise, latch, h]

theorem finish_eq_next {r : Except Fault State} {k : State → State} {t : State} :
    finish r k = .next t ↔ ∃ u, r = .ok u ∧ t = k u := by
  cases r with
  | error f => simp [finish]
  | ok u => simp [finish, eq_comm]

theorem finish_eq_refused {r : Except Fault State} {k : State → State} {e : Refusal} : finish r k ≠ .refused e := by
  cases r <;> simp [finish]

/-! ### Counters -/

/-- The guarded sum fits the counter (43 R144). -/
theorem addCount_toNat {c : BitVec 64} {n : Nat} (h : c.toNat + n ≤ maxInput) : (addCount c n).toNat = c.toNat + n := by
  rw [addCount, BitVec.toNat_ofNat, Nat.mod_eq_of_lt]
  simp only [maxInput] at h
  omega

theorem overflows_eq_false {s : State} {n : Nat} : overflows s n = false ↔ s.count.toNat + n ≤ maxInput := by
  simp [overflows]

theorem remainder_lt (s : State) : remainder s < 64 := Nat.mod_lt _ (by decide)

theorem topUp_le (r n : Nat) : topUp r n ≤ n := Nat.min_le_left _ _

theorem topUp_add_le {r : Nat} (n : Nat) (h : r < 64) : r + topUp r n ≤ 64 := by
  unfold topUp; omega

/-- After the bulk loop 0 to 63 bytes are left over (43 R142). -/
theorem leftover_lt {n p : Nat} (h : p ≤ n) : n - (p + 64 * fullBlocks n p) < 64 ∧ p + 64 * fullBlocks n p ≤ n := by
  unfold fullBlocks; omega

/-! ### UPDATE's payload steps -/

/-- Steps (b) and (c) always answer from a cursor inside the payload (43 R142). -/
theorem absorbRest_eq {data : List Byte} {p : Nat} (s : State) (h : p ≤ data.length) :
    absorbRest data p s = .ok
      { s with
        lanes := absorbRun data (fullBlocks data.length p) p s.lanes
        buf := writeCells s.buf 0 (data.drop (p + 64 * fullBlocks data.length p))
        count := addCount s.count data.length } := by
  have hl := (leftover_lt h).1
  unfold absorbRest
  simp only [slice_to_end]
  rw [bufWrite_eq (by simp; omega)]

/-- The buffer after the top-up of step (a) (43 R142). -/
def toppedUp (data : List Byte) (s : State) : Memory :=
  writeCells s.buf (remainder s) (data.take (topUp (remainder s) data.length))

/-- Everything the payload steps of UPDATE can do when they answer (43 R142): nothing for an empty payload; the whole
payload into the buffer when it does not fill it; else the completed buffer, then full super-blocks, then the rest. -/
theorem absorbPayload_cases {data : List Byte} {s t : State} (h : absorbPayload data s = .ok t) :
    (data = [] ∧ t = s) ∨
    (data ≠ [] ∧ 0 < remainder s ∧ remainder s + data.length < 64 ∧
      t = { s with
        buf := writeCells s.buf (remainder s) data
        count := addCount s.count data.length }) ∨
    (data ≠ [] ∧ 0 < remainder s ∧ 64 ≤ remainder s + data.length ∧
      ∃ blk, bufRead (toppedUp data s) 0 64 = .ok blk ∧
        absorbRest data (64 - remainder s) { s with buf := toppedUp data s, lanes := absorb64 s.lanes blk } = .ok t) ∨
    (data ≠ [] ∧ remainder s = 0 ∧ absorbRest data 0 s = .ok t) := by
  have hr := remainder_lt s
  have hk := topUp_add_le data.length hr
  unfold absorbPayload at h
  have hs : slice data 0 (topUp (remainder s) data.length) = data.take (topUp (remainder s) data.length) := by
    simp [slice]
  simp only [hs] at h
  by_cases h0 : data.length = 0
  · rw [if_pos h0] at h
    cases h
    exact .inl ⟨List.length_eq_zero_iff.1 h0, rfl⟩
  · have hne : data ≠ [] := fun e => h0 (by simp [e])
    rw [if_neg h0] at h
    by_cases hp : remainder s > 0
    · rw [if_pos hp, bufWrite_eq (by simp; omega)] at h
      simp only at h
      by_cases hc : remainder s + topUp (remainder s) data.length = 64
      · rw [if_pos hc] at h
        have hk' : topUp (remainder s) data.length = 64 - remainder s := by omega
        have hge : 64 ≤ remainder s + data.length := by
          have := topUp_le (remainder s) data.length
          omega
        rw [hk'] at h
        cases hb : bufRead (writeCells s.buf (remainder s) (data.take (64 - remainder s))) 0 64 with
        | error f => simp [hb] at h
        | ok blk =>
          simp only [hb] at h
          exact .inr (.inr (.inl ⟨hne, hp, hge, blk, by rw [toppedUp, hk', hb], by
            simpa only [toppedUp, hk'] using h⟩))
      · rw [if_neg hc] at h
        cases h
        have hlt : remainder s + data.length < 64 := by
          unfold topUp at hc
          omega
        have hkn : topUp (remainder s) data.length = data.length := by
          unfold topUp
          omega
        exact .inr (.inl ⟨hne, hp, hlt, by rw [hkn, List.take_length]⟩)
    · rw [if_neg hp] at h
      exact .inr (.inr (.inr ⟨hne, by omega, h⟩))

/-- The payload steps answer whenever the pending cells hold values (20_memory R46). -/
theorem absorbPayload_answers {data : List Byte} {s : State}
    (h : ∀ i < remainder s, (s.buf.read i).isSome = true) : ∃ t, absorbPayload data s = .ok t := by
  have hr := remainder_lt s
  have hk := topUp_add_le data.length hr
  have hs : slice data 0 (topUp (remainder s) data.length) = data.take (topUp (remainder s) data.length) := by
    simp [slice]
  unfold absorbPayload
  simp only [hs]
  by_cases h0 : data.length = 0
  · exact ⟨s, by rw [if_pos h0]⟩
  · rw [if_neg h0]
    by_cases hp : remainder s > 0
    · rw [if_pos hp, bufWrite_eq (by simp; omega)]
      simp only
      by_cases hc : remainder s + topUp (remainder s) data.length = 64
      · rw [if_pos hc]
        have htl := topUp_le (remainder s) data.length
        obtain ⟨blk, hb⟩ := readCells_of_isSome (i := 0) (n := 64)
          (m := writeCells s.buf (remainder s) (data.take (topUp (remainder s) data.length))) (fun j hj => by
            rw [read_writeCells]
            split
            · rename_i hin
              rw [List.getElem?_eq_getElem (by omega)]
              rfl
            · rename_i hout
              simp only [List.length_take, Nat.min_eq_left htl] at hout
              exact h _ (by omega))
        rw [bufRead_eq (by omega), hb]
        exact ⟨_, absorbRest_eq _ (topUp_le _ _)⟩
      · rw [if_neg hc]
        exact ⟨_, rfl⟩
    · rw [if_neg hp]
      exact ⟨_, absorbRest_eq s (Nat.zero_le _)⟩

/-- The payload steps write the lanes, the buffer and `COUNT` only (10_state R32). -/
theorem absorbPayload_frame {data : List Byte} {s t : State} (h : absorbPayload data s = .ok t) :
    t = { s with lanes := t.lanes, buf := t.buf, count := t.count } := by
  rcases absorbPayload_cases h with ⟨_, rfl⟩ | ⟨_, _, _, rfl⟩ | ⟨_, hr, _, blk, _, h⟩ | ⟨_, _, h⟩
  · rfl
  · rfl
  · rw [absorbRest_eq _ (by omega)] at h
    cases h
    rfl
  · rw [absorbRest_eq _ (Nat.zero_le _)] at h
    cases h
    rfl

/-- `COUNT` grows by the whole payload on every path (43 R142, R144). -/
theorem absorbPayload_count {data : List Byte} {s t : State} (h : absorbPayload data s = .ok t)
    (hc : s.count.toNat + data.length ≤ maxInput) : t.count.toNat = s.count.toNat + data.length := by
  rcases absorbPayload_cases h with ⟨rfl, rfl⟩ | ⟨_, _, _, rfl⟩ | ⟨_, hr, _, blk, _, h⟩ | ⟨_, _, h⟩
  · simp
  · exact addCount_toNat hc
  · rw [absorbRest_eq _ (by omega)] at h
    cases h
    exact addCount_toNat hc
  · rw [absorbRest_eq _ (Nat.zero_le _)] at h
    cases h
    exact addCount_toNat hc

/-- The payload steps keep the canonical form of the buffer. -/
theorem absorbPayload_wf {data : List Byte} {s t : State} (h : absorbPayload data s = .ok t)
    (hm : Memory.wf s.buf) : Memory.wf t.buf := by
  have hr := remainder_lt s
  have hk := topUp_add_le data.length hr
  rcases absorbPayload_cases h with ⟨_, rfl⟩ | ⟨_, _, hlt, rfl⟩ | ⟨_, hr, hge, blk, _, h⟩ | ⟨_, _, h⟩
  · exact hm
  · exact writeCells_wf (by omega) hm
  · have hl := (leftover_lt (n := data.length) (p := 64 - remainder s) (by omega)).1
    rw [absorbRest_eq _ (by omega)] at h
    cases h
    exact writeCells_wf (by simp; omega) (writeCells_wf (by simp; omega) hm)
  · have hl := (leftover_lt (n := data.length) (p := 0) (by omega)).1
    rw [absorbRest_eq _ (Nat.zero_le _)] at h
    cases h
    exact writeCells_wf (by simp; omega) hm

/-! ### FINALIZE -/

/-- Everything FINALIZE can do after its tests when it answers (43 R143). -/
theorem closeSession_cases {c : Cfg} {s t : State} (h : closeSession c s = .ok t) :
    (s.count.toNat < 64 ∧ ∃ d, bufRead s.buf 0 s.count.toNat = .ok d ∧
      t = { s with acc := smallKey c d s.seed, phase := .finalized }) ∨
    (64 ≤ s.count.toNat ∧ ∃ d, bufRead s.buf 0 (remainder s) = .ok d ∧
      t = { s with
        lanes := xLane (tailL c s.lanes d)
        acc := mix (reduce (xLane (tailL c s.lanes d))) c.k9k10
        phase := .finalized }) := by
  unfold closeSession shortSession at h
  by_cases hc : s.count.toNat < 64
  · simp only [hc, decide_true, if_true] at h
    cases hb : bufRead s.buf 0 s.count.toNat with
    | error f => simp [hb] at h
    | ok d =>
      simp only [hb, Except.ok.injEq] at h
      exact .inl ⟨hc, d, rfl, h.symm⟩
  · simp only [hc, decide_false, Bool.false_eq_true, if_false] at h
    cases hb : bufRead s.buf 0 (remainder s) with
    | error f => simp [hb] at h
    | ok d =>
      simp only [hb, Except.ok.injEq] at h
      exact .inr ⟨by omega, d, rfl, h.symm⟩

/-- FINALIZE writes `LANE`, `ACC` and `PHASE` only (10_state R32), and leaves the session finalized. -/
theorem closeSession_frame {c : Cfg} {s t : State} (h : closeSession c s = .ok t) :
    t = { s with lanes := t.lanes, acc := t.acc, phase := .finalized } := by
  rcases closeSession_cases h with ⟨_, d, _, rfl⟩ | ⟨_, d, _, rfl⟩ <;> rfl

/-- FINALIZE answers whenever the pending cells hold values (20_memory R46). -/
theorem closeSession_answers {c : Cfg} {s : State} (h : ∀ i < remainder s, (s.buf.read i).isSome = true) :
    ∃ t, closeSession c s = .ok t := by
  have hr := remainder_lt s
  unfold closeSession shortSession
  by_cases hc : s.count.toNat < 64
  · have he : remainder s = s.count.toNat := Nat.mod_eq_of_lt hc
    obtain ⟨d, hd⟩ := readCells_of_isSome (m := s.buf) (i := 0) (n := s.count.toNat)
      fun j hj => by rw [Nat.zero_add]; exact h j (by omega)
    simp only [hc, decide_true, if_true, bufRead_eq (show 0 + s.count.toNat ≤ 64 by omega), hd]
    exact ⟨_, rfl⟩
  · obtain ⟨d, hd⟩ := readCells_of_isSome (m := s.buf) (i := 0) (n := remainder s)
      fun j hj => by rw [Nat.zero_add]; exact h j hj
    simp only [hc, decide_false, Bool.false_eq_true, if_false,
      bufRead_eq (show 0 + remainder s ≤ 64 by omega), hd]
    exact ⟨_, rfl⟩

/-! ### The commands: everything an answer can be -/

theorem initCommand_cases {c : Cfg} {v : V128} {s t : State} (h : initCommand c v s = .next t) :
    (s.err ≠ 0#3 ∧ t = respondStatus s) ∨ (s.err = 0#3 ∧ t = respondStatus (openSession c v s)) := by
  by_cases he : s.err = 0#3
  · rw [initCommand, unlessFaulted_of_ok he] at h
    cases h
    exact .inr ⟨he, rfl⟩
  · rw [initCommand, unlessFaulted_of_err he] at h
    cases h
    exact .inl ⟨he, rfl⟩

theorem updateCommand_cases {data : List Byte} {s t : State} (h : updateCommand data s = .next t) :
    (s.err ≠ 0#3 ∧ t = respondStatus s) ∨
    (s.err = 0#3 ∧ ∃ f, phaseFault s.phase = some f ∧ t = raise f s) ∨
    (s.err = 0#3 ∧ s.phase = .active ∧ s.count.toNat + data.length > maxInput ∧ t = raise .lengthOverflow s) ∨
    (s.err = 0#3 ∧ s.phase = .active ∧ s.count.toNat + data.length ≤ maxInput ∧
      ∃ u, absorbPayload data s = .ok u ∧ t = respondStatus u) := by
  by_cases he : s.err = 0#3
  · rw [updateCommand, unlessFaulted_of_ok he] at h
    cases hp : s.phase with
    | idle =>
      simp only [hp, phaseFault] at h
      cases h
      exact .inr (.inl ⟨he, _, by simp [phaseFault], rfl⟩)
    | finalized =>
      simp only [hp, phaseFault] at h
      cases h
      exact .inr (.inl ⟨he, _, by simp [phaseFault], rfl⟩)
    | active =>
      simp only [hp, phaseFault] at h
      by_cases ho : s.count.toNat + data.length ≤ maxInput
      · rw [overflows_eq_false.2 ho, if_neg (by simp)] at h
        obtain ⟨u, hu, rfl⟩ := finish_eq_next.1 h
        exact .inr (.inr (.inr ⟨he, rfl, ho, u, hu, rfl⟩))
      · rw [if_pos (by simp [overflows]; omega)] at h
        cases h
        exact .inr (.inr (.inl ⟨he, rfl, by omega, rfl⟩))
  · rw [updateCommand, unlessFaulted_of_err he] at h
    cases h
    exact .inl ⟨he, rfl⟩

theorem finalizeCommand_cases {c : Cfg} {s t : State} (h : finalizeCommand c s = .next t) :
    (s.err ≠ 0#3 ∧ t = respondStatus s) ∨
    (s.err = 0#3 ∧ ∃ f, phaseFault s.phase = some f ∧ t = raise f s) ∨
    (s.err = 0#3 ∧ s.phase = .active ∧ ∃ u, closeSession c s = .ok u ∧ t = respondDigest u) := by
  by_cases he : s.err = 0#3
  · rw [finalizeCommand, unlessFaulted_of_ok he] at h
    cases hp : s.phase with
    | idle =>
      simp only [hp, phaseFault] at h
      cases h
      exact .inr (.inl ⟨he, _, by simp [phaseFault], rfl⟩)
    | finalized =>
      simp only [hp, phaseFault] at h
      cases h
      exact .inr (.inl ⟨he, _, by simp [phaseFault], rfl⟩)
    | active =>
      simp only [hp, phaseFault] at h
      obtain ⟨u, hu, rfl⟩ := finish_eq_next.1 h
      exact .inr (.inr ⟨he, rfl, u, hu, rfl⟩)
  · rw [finalizeCommand, unlessFaulted_of_err he] at h
    cases h
    exact .inl ⟨he, rfl⟩

theorem hashCommand_cases {c : Cfg} {v : V128} {data : List Byte} {s t : State}
    (h : hashCommand c v data s = .next t) :
    (s.err ≠ 0#3 ∧ t = respondStatus s) ∨
    (s.err = 0#3 ∧ data.length > maxInput ∧ t = raise .lengthOverflow s) ∨
    (s.err = 0#3 ∧ data.length ≤ maxInput ∧
      ∃ u w, absorbPayload data (openSession c v s) = .ok u ∧ closeSession c u = .ok w ∧ t = respondDigest w) := by
  by_cases he : s.err = 0#3
  · rw [hashCommand, unlessFaulted_of_ok he] at h
    by_cases ho : data.length > maxInput
    · rw [if_pos ho] at h
      cases h
      exact .inr (.inl ⟨he, ho, rfl⟩)
    · rw [if_neg ho] at h
      obtain ⟨w, hw, rfl⟩ := finish_eq_next.1 h
      rw [hashSteps] at hw
      cases hu : absorbPayload data (openSession c v s) with
      | error f => simp [hu] at hw
      | ok u =>
        simp only [hu] at hw
        exact .inr (.inr ⟨he, by omega, u, w, rfl, hw, rfl⟩)
  · rw [hashCommand, unlessFaulted_of_err he] at h
    cases h
    exact .inl ⟨he, rfl⟩

/-! ### One step -/

theorem takeEvent_nil {s : State} (h : s.cmds = []) : takeEvent s = none := by
  simp [takeEvent, h]

theorem takeEvent_cons {s : State} {e : HostEvent} {rest : List HostEvent} (h : s.cmds = e :: rest) :
    takeEvent s = some (e, { s with cmds := rest }) := by
  simp [takeEvent, h]

/-- Everything a step can do when it answers a next state (00_scope R7, 60 R165): wait, reset, refuse, raise
`IllegalCommand`, or execute the command. -/
theorem step_cases {s t : State} (h : step s = .next t) :
    (s.cmds = [] ∧ t = s) ∨
    (∃ rest, s.cmds = .reset :: rest ∧ t = resetEvent { s with cmds := rest }) ∨
    (∃ p rest, s.cmds = .packet p :: rest ∧ s.err ≠ 0#3 ∧ t = respondStatus { s with cmds := rest }) ∨
    (∃ p rest e, s.cmds = .packet p :: rest ∧ s.err = 0#3 ∧ decode p = .error e ∧
      t = raise .illegalCommand { s with cmds := rest }) ∨
    (∃ p rest i, s.cmds = .packet p :: rest ∧ s.err = 0#3 ∧ decode p = .ok i ∧
      exec i { s with cmds := rest } = .next t) := by
  unfold step at h
  cases hc : s.cmds with
  | nil =>
    rw [takeEvent_nil hc] at h
    cases h
    exact .inl ⟨rfl, rfl⟩
  | cons e rest =>
    rw [takeEvent_cons hc] at h
    cases e with
    | reset =>
      cases h
      exact .inr (.inl ⟨rest, rfl, rfl⟩)
    | packet p =>
      by_cases he : s.err = 0#3
      · have hf : faulted { s with cmds := rest } = false := faulted_eq_false.2 he
        simp only [hf, Bool.false_eq_true, if_false] at h
        cases hd : decode p with
        | error e =>
          simp only [hd] at h
          cases h
          exact .inr (.inr (.inr (.inl ⟨p, rest, e, rfl, he, hd, rfl⟩)))
        | ok i =>
          simp only [hd] at h
          exact .inr (.inr (.inr (.inr ⟨p, rest, i, rfl, he, hd, h⟩)))
      · have hf : faulted { s with cmds := rest } = true := faulted_eq_true.2 he
        simp only [hf, if_true] at h
        cases h
        exact .inr (.inr (.inl ⟨p, rest, rfl, he, rfl⟩))

/-- A run goes on from the next state of its first step (70 R195). -/
theorem run_succ_next (M : Host.Core) {n : Nat} {s s' : M.State} (h : M.step s = .next s') :
    M.run (n + 1) s = M.run n s' := by
  simp [Host.Core.run, h]

end Sys2Proof.Machine
end

