-- ==== Sys2Proof/Laws/PerInstr.lean ====
section
/-! SUPPORT. Statements made per instruction: the length of a command packet (30_encoding R70), and its command byte
(R68). -/

namespace Sys2Proof.Laws

open Sys2Proof Sys2Proof.Machine

/-- The length of a command packet: `1`, `17`, `9 + n` or `25 + n` (30_encoding R70). -/
def packetLength : Instr → Nat
  | .init none => 1
  | .init (some _) => 17
  | .update data => 9 + data.length
  | .finalize => 1
  | .hash none data => 9 + data.length
  | .hash (some _) data => 25 + data.length

/-- The length of a packet is the one 30_encoding R70 gives its command. -/
def EncodeLength.Statement (i : Instr) : Prop := (encode i).length = packetLength i

theorem EncodeLength.init (seed : Option V128) : EncodeLength.Statement (.init seed) := by
  cases seed <;> simp [EncodeLength.Statement, encode, encodeSeed, packetLength, bytesOf]

theorem EncodeLength.update (data : List Byte) : EncodeLength.Statement (.update data) := by
  simp [EncodeLength.Statement, encode, encodePayload, le64Bytes, packetLength]
  omega

theorem EncodeLength.finalize : EncodeLength.Statement .finalize := rfl

theorem EncodeLength.hash (seed : Option V128) (data : List Byte) : EncodeLength.Statement (.hash seed data) := by
  cases seed <;> simp [EncodeLength.Statement, encode, encodeSeed, encodePayload, le64Bytes, packetLength, bytesOf] <;>
    omega

/-- A packet begins with one of the six legal command bytes (30_encoding R68). -/
def EncodeCommandByte.Statement (i : Instr) : Prop :=
  ∃ cb rest, encode i = cb :: rest ∧ cb ∈ [0x01#8, 0x09#8, 0x02#8, 0x03#8, 0x04#8, 0x0c#8]

theorem EncodeCommandByte.init (seed : Option V128) : EncodeCommandByte.Statement (.init seed) := by
  cases seed
  · exact ⟨_, _, rfl, by decide⟩
  · exact ⟨_, _, rfl, by simp only [Option.isSome_some]; decide⟩

theorem EncodeCommandByte.update (data : List Byte) : EncodeCommandByte.Statement (.update data) :=
  ⟨_, _, rfl, by decide⟩

theorem EncodeCommandByte.finalize : EncodeCommandByte.Statement .finalize :=
  ⟨_, _, rfl, by decide⟩

theorem EncodeCommandByte.hash (seed : Option V128) (data : List Byte) :
    EncodeCommandByte.Statement (.hash seed data) := by
  cases seed
  · exact ⟨_, _, rfl, by decide⟩
  · exact ⟨_, _, rfl, by simp only [Option.isSome_some]; decide⟩

end Sys2Proof.Laws
end

