-- ==== Sys2Proof/Tests/Slice0.lean ====
section
/-! SUPPORT. The model's own tests, expected values from spec/ alone, and for every statement with hypotheses a
state and operands that meet them (names `witness_…`). "T" is TESTCFG (41 R109); a command that needs a `CFG` value
to be evaluated is run over it. -/

namespace Sys2Proof.Tests

open Sys2Proof Sys2Proof.Machine

-- One theorem after the other: side by side, their evaluations ask for more memory than the checks allow.
set_option Elab.async false

/-! ### Helpers -/

/-- `seq(n, a)` of 95_test_vectors. -/
def seq (n : Nat) (a : Nat := 0) : List Byte := (List.range n).map fun i => BitVec.ofNat 8 (a + i)

/-- `S1` of 95_test_vectors. -/
def s1 : V128 := hex16 0xf0e1d2c3b4a5968778695a4b3c2d1e0f

/-- The next state, when there is one. -/
def after (o : Host.Outcome State Fault Refusal) : Option State :=
  match o with
  | .next s => some s
  | _ => none

/-- A step that answers, by evaluation. -/
theorem answers {o : Host.Outcome State Fault Refusal} (h : (after o).isSome = true) : ∃ t, o = .next t := by
  cases o <;> simp_all [after]

/-- A step that answers with a state of which `p` holds, by evaluation. -/
theorem answers_with {o : Host.Outcome State Fault Refusal} {p : State → Prop} [DecidablePred p]
    (h : (after o).any (fun t => decide (p t)) = true) : ∃ t, o = .next t ∧ p t := by
  cases o <;> simp_all [after]

/-- `n` cells from index 0, cell `i` holding `a + i`. -/
def cells (n : Nat) (a : Nat := 0) : Memory := (List.range n).map fun i => (i, BitVec.ofNat 8 (a + i))

/-- A session of `count` bytes from `LANEINIT(Z)` over T, its pending cells `a`, `a + 1`, … -/
def session (count : Nat) (a : Nat := 0) : State :=
  { State.reset with
    phase := .active, count := BitVec.ofNat 64 count, buf := cells (count % 64) a
    lanes := laneInit Config.testCfg zero128 }

/-- A finalized engine of an empty session. -/
def finalized : State := { State.reset with phase := .finalized }

/-- An engine with the code `e` latched. -/
def latched (e : BitVec 3) (s : State) : State := { s with err := e }

/-- The host has sent `p`. -/
def sent (p : List Byte) (s : State) : State := { s with cmds := [.packet p] }

/-! ### Well-formedness and decoding -/

/-- UPDATE's check refuses a payload that its length field cannot carry (30_encoding R66). -/
theorem test_wf_update_too_long : (Instr.update (List.replicate (2 ^ 64) 0)).wellFormed = false := by
  simp only [Instr.wellFormed, List.length_replicate, Nat.lt_irrefl, decide_false]

/-- HASH's check likewise. -/
theorem test_wf_hash_too_long : (Instr.hash (some s1) (List.replicate (2 ^ 64) 0)).wellFormed = false := by
  simp only [Instr.wellFormed, List.length_replicate, Nat.lt_irrefl, decide_false]

theorem test_wf_accepts : (Instr.init none).wellFormed ∧ (Instr.init (some s1)).wellFormed ∧
    (Instr.update (seq 70)).wellFormed ∧ Instr.finalize.wellFormed ∧ (Instr.hash (some s1) []).wellFormed := by
  decide

/-- The packets of 95 section 7, written out, decode to their commands. -/
theorem test_decode_written_out :
    decode [0x01#8] = .ok (.init none) ∧
    decode (0x09#8 :: [0xf0#8, 0xe1#8, 0xd2#8, 0xc3#8, 0xb4#8, 0xa5#8, 0x96#8, 0x87#8, 0x78#8, 0x69#8, 0x5a#8, 0x4b#8,
      0x3c#8, 0x2d#8, 0x1e#8, 0x0f#8]) = .ok (.init (some s1)) ∧
    decode [0x02#8, 0#8, 0#8, 0#8, 0#8, 0#8, 0#8, 0#8, 0#8] = .ok (.update []) ∧
    decode [0x02#8, 3#8, 0#8, 0#8, 0#8, 0#8, 0#8, 0#8, 0#8, 0x61#8, 0x62#8, 0x63#8] =
      .ok (.update [0x61#8, 0x62#8, 0x63#8]) ∧
    decode [0x03#8] = .ok .finalize ∧
    decode [0x04#8, 0#8, 0#8, 0#8, 0#8, 0#8, 0#8, 0#8, 0#8] = .ok (.hash none []) ∧
    decode (0x0c#8 :: ([0xf0#8, 0xe1#8, 0xd2#8, 0xc3#8, 0xb4#8, 0xa5#8, 0x96#8, 0x87#8, 0x78#8, 0x69#8, 0x5a#8, 0x4b#8,
      0x3c#8, 0x2d#8, 0x1e#8, 0x0f#8] ++ [2#8, 0#8, 0#8, 0#8, 0#8, 0#8, 0#8, 0#8] ++ [0xca#8, 0xfe#8])) =
      .ok (.hash (some s1) [0xca#8, 0xfe#8]) := by
  decide +kernel

/-- The length `1000 = 0x3e8` is sent as `e8 03 00 …` (95 section 7). -/
theorem test_encode_length :
    (encode (.update (seq 1000))).take 9 = [0x02#8, 0xe8#8, 3#8, 0#8, 0#8, 0#8, 0#8, 0#8, 0#8] := by
  decide +kernel

/-- The illegal packets of 95 section 7, in its order. -/
def illegalPackets : List (List Byte) :=
  [[], [0x00#8], [0x05#8], [0x06#8], [0x07#8], [0x08#8], 0x0a#8 :: List.replicate 24 0#8, [0x0b#8], [0x0d#8], [0x0e#8],
   [0x0f#8], [0x10#8], [0x11#8], [0x81#8], [0xff#8], [0x01#8, 0#8], 0x09#8 :: seq 15, 0x09#8 :: seq 17, [0x02#8],
   [0x02#8, 3#8, 0#8, 0#8, 0#8, 0#8, 0#8, 0#8, 0#8, 0x61#8, 0x62#8],
   [0x02#8, 3#8, 0#8, 0#8, 0#8, 0#8, 0#8, 0#8, 0#8, 1#8, 2#8, 3#8, 4#8], [0x03#8, 0#8], [0x04#8, 0#8, 0#8, 0#8],
   0x0c#8 :: (List.replicate 16 0#8 ++ [1#8, 0#8, 0#8, 0#8, 0#8, 0#8, 0#8, 0#8])]

/-- Each raises `IllegalCommand`: response `01` from `IDLE`, `09` from `ACTIVE`, `11` from `FINALIZED`
(95 section 7). -/
theorem test_illegal_packets : ∀ p ∈ illegalPackets,
    (after (step (sent p State.reset))).map (·.resps) = some [[0x01#8]] ∧
    (after (step (sent p (session 0)))).map (·.resps) = some [[0x09#8]] ∧
    (after (step (sent p finalized))).map (·.resps) = some [[0x11#8]] := by
  decide +kernel

/-- Opcode-table words: operands above the table's bits are zeros (log 19). -/
theorem test_table_words :
    decodeTableWord 8 0x01 = some (.init none) ∧ decodeTableWord 8 0x09 = some (.init (some zero128)) ∧
    decodeTableWord 8 0x02 = some (.update []) ∧ decodeTableWord 8 0x03 = some .finalize ∧
    decodeTableWord 8 0x04 = some (.hash none []) ∧ decodeTableWord 8 0x0c = some (.hash (some zero128) []) ∧
    decodeTableWord 8 0x0a = none ∧ decodeTableWord 8 0x05 = none ∧ decodeTableWord 8 0x12 = none := by
  decide +kernel

/-- A table word placed by `withFetchWord` is what the next step runs: FINALIZE in `IDLE` answers `02`
(95 section 9 run 1), UPDATE as well (run 2). -/
theorem test_fetch_word :
    (after (step (State.reset.withFetchWord 8 0x03))).map (·.resps) = some [[0x02#8]] ∧
    (after (step (State.reset.withFetchWord 8 0x02))).map (·.resps) = some [[0x02#8]] := by
  decide +kernel

/-! ### Assembler text (30_encoding R72, R73) -/

/-- `update 616263` and `update "abc"` assemble to the same packet (30_encoding R72). -/
theorem test_assemble_update :
    assembleText ['u', 'p', 'd', 'a', 't', 'e', ' ', '6', '1', '6', '2', '6', '3'] =
      some [.packet [0x02#8, 3#8, 0#8, 0#8, 0#8, 0#8, 0#8, 0#8, 0#8, 0x61#8, 0x62#8, 0x63#8]] ∧
    assembleText ['u', 'p', 'd', 'a', 't', 'e', ' ', quoteChar, 'a', 'b', 'c', quoteChar, ' ', '#', 'x'] =
      some [.packet [0x02#8, 3#8, 0#8, 0#8, 0#8, 0#8, 0#8, 0#8, 0#8, 0x61#8, 0x62#8, 0x63#8]] := by
  decide +kernel

/-- `session FE` is INIT, UPDATE, FINALIZE (30_encoding R73); `reset` is no packet; `init x` is no line. -/
theorem test_assemble_pseudo :
    assembleText ['s', 'e', 's', 's', 'i', 'o', 'n', ' ', 'F', 'E'] =
      some [.packet [0x01#8], .packet [0x02#8, 1#8, 0#8, 0#8, 0#8, 0#8, 0#8, 0#8, 0#8, 0xfe#8], .packet [0x03#8]] ∧
    assembleText ['r', 'e', 's', 'e', 't'] = some [.reset] ∧ assembleText ['i', 'n', 'i', 't', ' ', 'x'] = none := by
  decide +kernel

/-- The model's choices of log 17: `chunks` with no chunk, and no blank between two quoted strings. -/
theorem test_assemble_choices :
    assembleText ['c', 'h', 'u', 'n', 'k', 's'] = some [.packet [0x01#8], .packet [0x03#8]] ∧
    (lex .gap ([quoteChar, 'a', quoteChar, quoteChar, 'b', quoteChar])) = some [.quoted ['a'], .quoted ['b']] := by
  decide +kernel

/-! ### The datapath -/

/-- 95 section 2.1: `xtime`, the product `57 * 83`, and two columns. -/
theorem test_field :
    xtime 0x57#8 = 0xae#8 ∧ xtime 0xae#8 = 0x47#8 ∧ xtime 0x80#8 = 0x1b#8 ∧ gfMul 0x57#8 0x83#8 = 0xc1#8 ∧
    (List.range 4).map (mixColumn 0xdb#8 0x13#8 0x53#8 0x45#8) = [0x8e#8, 0x4d#8, 0xa1#8, 0xbc#8] ∧
    (List.range 4).map (mixColumn 0xf2#8 0x0a#8 0x22#8 0x5c#8) = [0x9f#8, 0xdc#8, 0x58#8, 0x9d#8] := by
  decide +kernel

/-- 40_mix R89, first row, with its intermediate values. -/
theorem test_mix_steps :
    let a := hex16 0x193de3bea0f4e22b9ac68d2ae9f84808
    subBytes a = hex16 0xd42711aee0bf98f1b8b45de51e415230 ∧
    shiftRows (subBytes a) = hex16 0xd4bf5d30e0b452aeb84111f11e2798e5 ∧
    mixColumns (shiftRows (subBytes a)) = hex16 0x046681e5e0cb199a48f8d37a2806264c ∧
    mix a (hex16 0xa0fafe1788542cb123a339392a6c7605) = hex16 0xa49c7ff2689f352b6b5bea43026a5049 := by
  decide +kernel

/-- 40_mix R89, fifth and last two rows: the row rotation, and the operands do not commute. -/
theorem test_mix_rows :
    mix (hex16 0x00000000000100000000000000000000) zero128 = hex16 0x425d7c7c636363636363636363636363 ∧
    mix (hex16 0x000102030405060708090a0b0c0d0e0f) (hex16 0xffffffffffffffffffffffffffffffff) =
      hex16 0x9595a3bad392ccae4f26a29ed863dea3 ∧
    mix (hex16 0xffffffffffffffffffffffffffffffff) (hex16 0x000102030405060708090a0b0c0d0e0f) =
      hex16 0x16171415121310111e1f1c1d1a1b1819 := by
  decide +kernel

/-- 95 section 3. -/
theorem test_pad :
    padBlock Config.testCfg .w8 [0x01#8, 0x23#8, 0x45#8, 0x67#8, 0x89#8, 0xab#8, 0xcd#8, 0xef#8] =
      hex16 0x80818283848586870123456789abcdef ∧
    padBlock Config.testCfg .w4 [0xde#8, 0xad#8, 0xbe#8, 0xef#8] = hex16 0x90919293deadbeef98999a9b9c9d9e9f ∧
    padBlock Config.testCfg .w2 [0xca#8, 0xfe#8] = hex16 0xa0a1cafea4a5a6a7a8a9aaabacadaeaf ∧
    padBlock Config.testCfg .w1 [0x7e#8] = hex16 0xb07eb2b3b4b5b6b7b8b9babbbcbdbebf := by
  decide +kernel

/-- 42 R121, R122: the worked examples. -/
theorem test_small_key_parts :
    blocks16 Config.testCfg zero128 (seq 16) = (hex16 0xe3ec94cfb116c21bf661f81e8f11895e, 16) ∧
    tails Config.testCfg zero128 [0x61#8, 0x62#8, 0x63#8] = hex16 0x10c2d3d1101010101010101010101010 := by
  decide +kernel

/-- 95 sections 4 to 6: 63 bytes take the small-key path, 64 and 127 the large-key path. -/
theorem test_hybrid :
    hybrid Config.testCfg [] s1 = hex16 0x514ede3625b77de6ade9247e7a3d723c ∧
    hybrid Config.testCfg (seq 63) zero128 = hex16 0x081db25db5ca539d7012e7253dfe4bd1 ∧
    hybrid Config.testCfg (seq 64) zero128 = hex16 0xb04205f1205a1968e2bc302b429a1b3a ∧
    hybrid Config.testCfg (seq 127) s1 = hex16 0x7a33ad92ee80174f42c33b263c9e2995 := by
  decide +kernel

/-- 41 R103: T meets what the source says of the constants. -/
theorem test_testcfg_hypotheses : Config.testCfg.LaneInitsDistinct ∧ Config.testCfg.FinishingDistinct := by
  refine ⟨by decide +kernel, ?_⟩
  simp only [Cfg.FinishingDistinct, List.forall_mem_cons]
  exact ⟨by decide +kernel, by decide +kernel, by decide +kernel, fun _ h => nomatch h⟩

/-! ### One step of each command -/

/-- INIT with a seed, from `IDLE` (43 R141; 95 section 5 `LANEINIT(S1)`). -/
theorem test_init :
    (after (initCommand Config.testCfg s1 State.reset)).map (fun s => (s.lanes.l1, s.seed, s.phase, s.resps)) =
      some (hex16 0xe0f0c0d0a0b080906070405020300010, s1, .active, [[0x08#8]]) := by
  decide +kernel

/-- INIT is refused on a faulted engine (95 section 9 run 1). -/
theorem test_init_refused :
    (after (execInit none (latched 2#3 State.reset))).map (fun s => (s.phase, s.resps)) =
      some (.idle, [[0x02#8]]) := by
  decide +kernel

/-- The second UPDATE of program P2 (95 section 10): top-up, absorption, six bytes left over, stale cells kept. -/
theorem test_update_p2 :
    (after (execUpdate (seq 60 10) (session 10))).map (fun s => (s.lanes.l0, s.count, s.buf)) =
      some (hex16 0x6a6b5e4628683556b8d0576a2b912f53, 70#64, cells 6 0x40 ++ (cells 64).drop 6) := by
  decide +kernel

/-- The second UPDATE of program P3 (95 section 10): the write pointer wraps from 63 to 0. -/
theorem test_update_wrap :
    (after (execUpdate [0x3f#8, 0x40#8] (session 63))).map
      (fun s => (s.lanes.l3, s.count, s.buf.read 0, s.buf.read 63)) =
      some (hex16 0x6cec24c343071d22e68fe91944ae2504, 65#64, some 0x40#8, some 0x3f#8) := by
  decide +kernel

/-- The lanes after `seq(64)` from `LANEINIT(Z)` (95 section 5, row "64 bytes"). -/
def lanes64 : Lanes :=
  ⟨hex16 0x6a6b5e4628683556b8d0576a2b912f53, hex16 0x1654853693b75b5e975791614af86420,
   hex16 0xe4c94411ab37bda56cd4b4bfd44e5f4f, hex16 0x6cec24c343071d22e68fe91944ae2504⟩

/-- FINALIZE of program P2 (95 section 10), the long path: digest and the lanes it leaves. -/
theorem test_finalize_long :
    (after (finalizeCommand Config.testCfg { session 70 0x40 with lanes := lanes64 })).map
      (fun s => (s.acc, s.lanes.l1, s.phase, s.count)) =
      some (hex16 0xe544072b473c2a84d0ac6d83579c8a04, hex16 0xe2316edb914814ff47e98f7cdd28edd6, .finalized, 70#64) := by
  decide +kernel

/-- FINALIZE of program P1 (95 section 10), the short path: the response is `10` and the digest. -/
theorem test_finalize_short :
    (after (finalizeCommand Config.testCfg (session 3 0x61))).map (·.resps) =
      some [0x10#8 :: bytesOf (hex16 0xd7fd7812c51bb59e5c1ab3884ae59cdd)] := by
  decide +kernel

/-- HASH in `FINALIZED`, with a seed (95 section 10, the last command of P4): digest, count, no cell written. -/
theorem test_hash_p4 :
    (after (hashCommand Config.testCfg s1 (seq 64) finalized)).map (fun s => (s.acc, s.lanes.l2, s.count, s.buf)) =
      some (hex16 0xf6992fa03d67a28f39baa58232c6beed, hex16 0x85bfe91e2e66736c28c4d3aa995c08f5, 64#64, []) := by
  decide +kernel

/-- `hash "abc"` throws a session in progress away (95 section 1 T1, 42 R131). -/
theorem test_hash_short :
    (after (hashCommand Config.testCfg zero128 [0x61#8, 0x62#8, 0x63#8] (session 10))).map
      (fun s => (s.acc, s.phase, s.count)) =
      some (hex16 0xd7fd7812c51bb59e5c1ab3884ae59cdd, .finalized, 3#64) := by
  decide +kernel

/-! ### Witnesses: the hypotheses of each statement are met -/

theorem witness_DecodeOfEncodeIsTheInstr :
    (Instr.update (seq 3)).wellFormed = true ∧ (Instr.hash (some s1) (seq 3)).wellFormed = true := by decide +kernel

theorem witness_DecodedPacketIsTheEncoding :
    decode [0x09#8] = .error .badLength ∧ decode [0x03#8] = .ok .finalize := by
  decide +kernel

/-- For the second clause: a packet that decodes to no command, on an engine with no fault latched. -/
theorem witness_DecodeAcceptsExactlySixForms :
    (sent [0x00#8] State.reset).err = 0#3 ∧ (sent [0x00#8] State.reset).cmds = [.packet [0x00#8]] ∧
    ∀ i, decode [0x00#8] ≠ .ok i := by
  refine ⟨rfl, rfl, fun i h => ?_⟩
  have : decode [0x00#8] = .error .noSuchOp := by decide
  simp [this] at h

/-- One packet in each of the eight classes, at a boundary. -/
theorem witness_EveryIllegalEncodingRaises :
    (sent [] State.reset).err = 0#3 ∧ (sent [] State.reset).cmds = [.packet []] ∧
    (∃ cb r, [0x10#8] = cb :: r ∧ cb.extractLsb' 4 4 ≠ 0#4) ∧
    (∃ cb r, [0xff#8] = cb :: r ∧ cb.extractLsb' 4 4 ≠ 0#4) ∧
    (∃ cb r, [0x0f#8] = cb :: r ∧
      cb ∈ [0x00#8, 0x05#8, 0x06#8, 0x07#8, 0x08#8, 0x0d#8, 0x0e#8, 0x0f#8]) ∧
    (∃ cb r, [0x0b#8] = cb :: r ∧ cb ∈ [0x0a#8, 0x0b#8]) ∧
    (∃ cb r, [0x03#8, 0#8] = cb :: r ∧ cb ∈ [0x01#8, 0x03#8] ∧ r.length ≠ 0) ∧
    (∃ cb r, 0x09#8 :: seq 15 = cb :: r ∧ cb = 0x09#8 ∧ r.length ≠ 16) ∧
    (∃ cb r, 0x02#8 :: seq 7 = cb :: r ∧ cb ∈ [0x02#8, 0x04#8] ∧
      (r.length < 8 ∨ r.length ≠ 8 + le64 (r.take 8))) ∧
    (∃ cb r, 0x04#8 :: 1#8 :: List.replicate 7 0#8 = cb :: r ∧ cb ∈ [0x02#8, 0x04#8] ∧
      (r.length < 8 ∨ r.length ≠ 8 + le64 (r.take 8))) ∧
    (∃ cb r, 0x0c#8 :: List.replicate 23 0#8 = cb :: r ∧ cb = 0x0c#8 ∧
      (r.length < 24 ∨ r.length ≠ 24 + le64 ((r.drop 16).take 8))) ∧
    ∃ cb r, 0x0c#8 :: List.replicate 25 0#8 = cb :: r ∧ cb = 0x0c#8 ∧
      (r.length < 24 ∨ r.length ≠ 24 + le64 ((r.drop 16).take 8)) :=
  ⟨rfl, rfl, ⟨_, _, rfl, by decide⟩, ⟨_, _, rfl, by decide⟩, ⟨_, _, rfl, by decide⟩, ⟨_, _, rfl, by decide⟩,
    ⟨_, _, rfl, by decide⟩, ⟨_, _, rfl, by decide⟩, ⟨_, _, rfl, by decide⟩, ⟨_, _, rfl, by decide⟩,
    ⟨_, _, rfl, by decide⟩, ⟨_, _, rfl, by decide⟩⟩

theorem witness_LengthFieldIsLittleEndian :
    (seq 8 0xf8).length = 8 ∧ le64 (List.replicate 8 0xff#8) = 2 ^ 64 - 1 := by
  decide +kernel

theorem witness_SixteenBytesKeepTheirOrder : (seq 16).length = 16 ∧ byteOf (load16 (seq 16)) 15 = 15#8 := by
  decide +kernel

theorem witness_BufWriteThenReadReturnsBytes :
    62 + [0xca#8, 0xfe#8].length ≤ 64 ∧ 64 + ([] : List Byte).length ≤ 64 ∧ Memory.wf (cells 3) ∧
    ¬ (62 ≤ 61 ∧ 61 < 62 + [0xca#8, 0xfe#8].length) := by decide +kernel

theorem witness_AbsentCellsStopByName :
    64 < 63 + 2 ∧ 64 < 64 + [0x61#8].length ∧ 63 + (0 + 1) ≤ 64 ∧ Memory.read (cells 63) 63 = none := by
  decide +kernel

theorem witness_MixColumnFormula : (0 : Nat) < 4 ∧ (3 : Nat) < 4 := by decide +kernel

/-- Two inputs that differ, and agree where the last clause of the statement looks for column 3. -/
theorem witness_MixHasTheStatedProperties :
    let a := hex16 0x000102030405060708090a0b0c0d0e0f
    let a' := hex16 0xff01020304ff06070809ff0b0c0d0eff
    a ≠ hex16 0x00ff020304050607080900ff0c0d0e0f ∧
    (∀ i < 4, byteOf a (4 * 3 + i) = byteOf (hex16 0xffffffff0405060708090a0b0c0d0e0f) (4 * 3 + i)) ∧
    byteOf a (4 * 3) = byteOf a' (4 * 3) ∧ byteOf a (4 * ((3 + 1) % 4) + 1) = byteOf a' (4 * ((3 + 1) % 4) + 1) ∧
    byteOf a (4 * ((3 + 2) % 4) + 2) = byteOf a' (4 * ((3 + 2) % 4) + 2) ∧
    byteOf a (4 * ((3 + 3) % 4) + 3) = byteOf a' (4 * ((3 + 3) % 4) + 3) := by
  decide +kernel

/-- For the last clause: T with another filler under the data of `PAD4`. -/
theorem witness_PadBlockPlacesTheTail :
    let c' : Cfg := { Config.testCfg with fill4 := hex16 0x909192930000000098999a9b9c9d9e9f }
    (seq 4).length = widthBytes .w4 ∧ c' ≠ Config.testCfg ∧ offOf Config.testCfg .w4 = offOf c' .w4 ∧
    ∀ i < 16, ¬ (offOf Config.testCfg .w4 ≤ i ∧ i < offOf Config.testCfg .w4 + widthBytes .w4) →
      byteOf (fillOf Config.testCfg .w4) i = byteOf (fillOf c' .w4) i := by
  decide +kernel

theorem witness_SmallKeyBlocksFoldInOrder :
    (seq 0).length < 64 ∧ (seq 15).length < 64 ∧ (seq 63).length < 64 := by decide +kernel

theorem witness_SmallKeyTailXorsItsUnits :
    (seq 8).length = 8 ∧ (seq 4).length = 4 ∧ (seq 2).length = 2 ∧ (seq 1).length = 1 := by decide +kernel

theorem witness_SmallKeyRunsItsSteps : (seq 63).length < 64 ∧ (seq 16).length < 64 := by decide +kernel

theorem witness_LargeKeyTailMixesItsUnits :
    ((seq 16).length = 16 ∧ (seq 16).length = 16 ∨ seq 16 = [] ∧ seq 16 = []) ∧
    (([] : List Byte).length = 16 ∨ ([] : List Byte) = []) ∧ ((seq 8).length = 8 ∨ seq 8 = []) ∧
    ((seq 4).length = 4 ∨ seq 4 = []) ∧ ((seq 2).length = 2 ∨ seq 2 = []) ∧ ((seq 1).length = 1 ∨ seq 1 = []) := by
  decide +kernel

theorem witness_LargeKeyRunsItsSteps : 64 ≤ (seq 64).length ∧ 64 ≤ (seq 127).length := by decide +kernel

theorem witness_StepRunsTheDecodedCommand :
    (sent [0x03#8] (session 3)).err = 0#3 ∧ (sent [0x03#8] (session 3)).cmds = [.packet [0x03#8]] ∧
    decode [0x03#8] = .ok .finalize := ⟨rfl, rfl, by decide⟩

theorem witness_StepWaitsForACommand : State.reset.cmds = [] ∧ (session 3).cmds = [] := ⟨rfl, rfl⟩

theorem witness_ResetEventClearsTheEngine :
    ({ latched 4#3 (session 70) with cmds := [.reset, .packet [0x01#8]] } : State).cmds =
      [.reset, .packet [0x01#8]] := rfl

/-- For `StepAlwaysAnswers`, and `EngineInv` wherever it is a premise: after reset, active with 63 pending bytes, active at `MAX_INPUT`, finalized,
and faulted in each phase. -/
theorem witness_EngineInv :
    EngineInv State.reset ∧ EngineInv (session 63) ∧ EngineInv (session (2 ^ 64 - 2)) ∧ EngineInv finalized ∧
    EngineInv (latched 2#3 State.reset) ∧ EngineInv (latched 4#3 (session 70)) ∧
    EngineInv (latched 3#3 finalized) := by
  refine ⟨?_, ?_, ?_, ?_, ?_, ?_, ?_⟩ <;> decide +kernel

/-- For each clause: FINALIZE answers with a digest, UPDATE without one, a fault without one. -/
theorem witness_EveryPacketGetsItsResponse :
    EngineInv (sent [0x03#8] (session 3)) ∧ EngineInv (sent [0x03#8] State.reset) ∧
    EngineInv (sent [0x01#8] State.reset) ∧ (∃ t, step (sent [0x03#8] (session 3)) = .next t ∧ t.err = 0#3) ∧
    (∃ t, step (sent [0x01#8] State.reset) = .next t ∧ t.err = 0#3) ∧
    (∃ t, step (sent [0x03#8] State.reset) = .next t ∧ t.err ≠ 0#3) ∧ decode [0x03#8] = .ok .finalize ∧
    ¬ (decode [0x01#8] = .ok .finalize ∨ ∃ seed data, decode [0x01#8] = .ok (.hash seed data)) :=
  ⟨by decide +kernel, by decide +kernel, by decide +kernel, answers_with (by decide +kernel),
    answers_with (by decide +kernel), answers_with (by decide +kernel), by decide, by
    have h : decode [0x01#8] = .ok (.init none) := by decide +kernel
    simp [h]⟩

theorem witness_StepKeepsTheInvariant :
    EngineInv (sent (encode (.update [0x3f#8, 0x40#8])) (session 63)) ∧
    ∃ t, step (sent (encode (.update [0x3f#8, 0x40#8])) (session 63)) = .next t :=
  ⟨by decide +kernel, answers (by decide +kernel)⟩

theorem witness_StatusByteLayout :
    (sent [0x03#8] State.reset).cmds = [.packet [0x03#8]] ∧ ∃ t, step (sent [0x03#8] State.reset) = .next t :=
  ⟨rfl, answers (by decide +kernel)⟩

/-- For `FaultedEngineRefusesEveryPacket`. -/
theorem witness_FaultedEngineRefusesEveryPacket :
    (latched 1#3 (session 3)).err ≠ 0#3 ∧ (sent [0x01#8] (latched 4#3 State.reset)).err ≠ 0#3 ∧
    (sent [0x01#8] (latched 4#3 State.reset)).cmds = [.packet [0x01#8]] := by decide +kernel

theorem witness_FaultedRunChangesNothing :
    (latched 2#3 { State.reset with cmds := [.packet [0x01#8], .packet [], .reset] }).err ≠ 0#3 ∧
    (latched 2#3 { State.reset with cmds := [.packet [0x01#8], .packet [], .reset] }).cmds =
      [[0x01#8], []].map .packet ++ [.reset] := by decide +kernel

theorem witness_OnlyResetClearsErr :
    (∃ t, step (sent [0x01#8] (latched 2#3 State.reset)) = .next t ∧ t.err = 2#3) ∧
    ∃ t, step { latched 2#3 State.reset with cmds := [.reset] } = .next t ∧ t.err = 0#3 :=
  ⟨answers_with (by decide +kernel), answers_with (by decide +kernel)⟩

theorem witness_FaultEntryWritesErrOnly :
    (∃ t, step (sent [0x02#8] (session 3)) = .next t ∧ t.err ≠ 0#3) ∧
    ∃ t, step (sent [0x03#8] finalized) = .next t ∧ t.err ≠ 0#3 :=
  ⟨answers_with (by decide +kernel), answers_with (by decide +kernel)⟩

/-- One packet for each branch of the statement's conclusion. -/
theorem witness_FirstFaultInOrderIsReported :
    (∃ t, step (sent [0xff#8] (latched 4#3 finalized)) = .next t) ∧
    (∃ t, step (sent [0xff#8] finalized) = .next t) ∧
    (∃ t, step (sent [0x01#8] finalized) = .next t) ∧
    (∃ t, step (sent (encode (.update [0x61#8])) State.reset) = .next t) ∧
    (∃ t, step (sent (encode (.update [])) finalized) = .next t) ∧
    (∃ t, step (sent (encode (.update [0x61#8])) (session (2 ^ 64 - 2))) = .next t ∧ t.err = 4#3) ∧
    (∃ t, step (sent (encode (.update [0x61#8])) (session (2 ^ 64 - 3))) = .next t ∧ t.err = 0#3) ∧
    (∃ t, step (sent [0x03#8] (session 0)) = .next t) ∧
    ∃ t, step (sent (encode (.hash none [0x61#8])) State.reset) = .next t :=
  ⟨answers (by decide +kernel), answers (by decide +kernel), answers (by decide +kernel),
    answers (by decide +kernel), answers (by decide +kernel), answers_with (by decide +kernel),
    answers_with (by decide +kernel), answers (by decide +kernel), answers (by decide +kernel)⟩

theorem witness_CommandsWithoutSessionFault : State.reset.err = 0#3 ∧ State.reset.phase = .idle := ⟨rfl, rfl⟩

theorem witness_FinalizedSessionCannotBeReused :
    finalized.err = 0#3 ∧ finalized.phase = .finalized ∧ (seq 3).length ≤ 2 ^ 64 - 2 ∧
    (List.replicate (2 ^ 64 - 2) 0#8).length ≤ 2 ^ 64 - 2 :=
  ⟨rfl, rfl, by decide +kernel, by rw [List.length_replicate]⟩

theorem witness_TooLongAStreamIsRejected :
    (session (2 ^ 64 - 2)).err = 0#3 ∧ (session (2 ^ 64 - 2)).phase = .active ∧
    (session (2 ^ 64 - 2)).count.toNat + [0x61#8].length > 2 ^ 64 - 2 ∧
    (List.replicate (2 ^ 64 - 1) 0#8).length > 2 ^ 64 - 2 :=
  ⟨rfl, rfl, by decide +kernel, by rw [List.length_replicate]; decide +kernel⟩

/-- One transition for each clause. -/
theorem witness_PhaseMovesAsTheTableSays :
    (∃ t, exec (.init none) finalized = .next t) ∧ (∃ t, exec (.update []) State.reset = .next t) ∧
    (∃ t, exec (.update []) finalized = .next t) ∧ (∃ t, exec (.update [0x61#8]) (session 0) = .next t) ∧
    (∃ t, exec .finalize State.reset = .next t) ∧ (∃ t, exec .finalize (session 64) = .next t) ∧
    (∃ t, exec .finalize finalized = .next t) ∧ (∃ t, exec (.hash none [0x61#8]) (session 5) = .next t) ∧
    (∃ t, exec (.hash none (List.replicate (2 ^ 64 - 1) 0#8)) State.reset = .next t) ∧
    (∃ t, step { session 3 with cmds := [.reset] } = .next t) ∧
    ∃ t, exec (.init none) (latched 2#3 State.reset) = .next t :=
  ⟨answers (by decide +kernel), answers (by decide +kernel), answers (by decide +kernel),
    answers (by decide +kernel), answers (by decide +kernel), answers (by decide +kernel),
    answers (by decide +kernel), answers (by decide +kernel),
    ⟨_, by
      simp only [exec, execHash, hashCommand, List.length_replicate, maxInput]
      exact unlessFaulted_of_ok rfl⟩,
    answers (by decide +kernel), answers (by decide +kernel)⟩

theorem witness_InitOpensASession :
    (session 5).err = 0#3 ∧ State.reset.err = 0#3 ∧ (latched 1#3 State.reset).err ≠ 0#3 :=
  ⟨rfl, rfl, by decide⟩

/-- No pending byte, 63 of them, and a count that the payload takes to `MAX_INPUT`. -/
theorem witness_UpdateAbsorbsThePayload :
    (session 63).err = 0#3 ∧ (session 63).phase = .active ∧
    (session 63).count.toNat + (seq 130).length ≤ 2 ^ 64 - 2 ∧
    bufRead (session 63).buf 0 (remainder (session 63)) = .ok (seq 63) ∧
    bufRead (session 64).buf 0 (remainder (session 64)) = .ok [] ∧
    (session (2 ^ 64 - 3)).count.toNat + [0x61#8].length ≤ 2 ^ 64 - 2 ∧
    bufRead (session (2 ^ 64 - 3)).buf 0 (remainder (session (2 ^ 64 - 3))) = .ok (seq 61) := by
  refine ⟨rfl, rfl, ?_, rfl, rfl, ?_, ?_⟩ <;> decide +kernel

theorem witness_UpdateStoresCellByCell :
    (∃ t, exec (.update [0x3f#8, 0x40#8]) (session 63) = .next t ∧ t.err = 0#3) ∧
    ∃ t, exec (.update [0x61#8]) (session 62) = .next t ∧ t.err = 0#3 ∧
      remainder (session 62) + [0x61#8].length < 64 :=
  ⟨answers_with (by decide +kernel), answers_with (by decide +kernel)⟩

theorem witness_EmptyUpdateIsANoOp :
    (session 7).err = 0#3 ∧ (session 7).phase = .active ∧ (session (2 ^ 64 - 2)).count.toNat ≤ 2 ^ 64 - 2 := by
  decide +kernel

theorem witness_FinalizeDigestsAShortSession :
    (session 63).err = 0#3 ∧ (session 63).phase = .active ∧ (session 63).count.toNat < 64 ∧
    bufRead (session 63).buf 0 (session 63).count.toNat = .ok (seq 63) ∧
    bufRead (session 0).buf 0 (session 0).count.toNat = .ok [] := ⟨rfl, rfl, by decide +kernel, rfl, rfl⟩

theorem witness_FinalizeDigestsALongSession :
    (session 64).err = 0#3 ∧ (session 64).phase = .active ∧ 64 ≤ (session 64).count.toNat ∧
    bufRead (session 64).buf 0 ((session 64).count.toNat % 64) = .ok [] ∧
    bufRead (session 127).buf 0 ((session 127).count.toNat % 64) = .ok (seq 63) :=
  ⟨rfl, rfl, by decide +kernel, rfl, rfl⟩

theorem witness_HashAnswersHybrid :
    (session 5).err = 0#3 ∧ (seq 64).length ≤ 2 ^ 64 - 2 ∧ (seq 63).length < 64 ∧ (seq 0).length ≤ 2 ^ 64 - 2 := by
  decide +kernel

/-- For `InitStartsTheEmptyStream`, `UpdateExtendsTheStream`, `FinalizeDigestsTheStream`: an engine right after INIT has accepted the empty stream, whatever `CFG` is. -/
theorem witness_Accepted (c : Cfg) :
    Accepted c s1 [] (openSession c s1 State.reset) ∧ (openSession c s1 State.reset).err = 0#3 ∧
    ([] : List Byte).length + (seq 70).length ≤ 2 ^ 64 - 2 :=
  ⟨⟨rfl, rfl, by decide +kernel, rfl, rfl, by intro i hi; cases hi⟩, rfl,
    by decide +kernel⟩

theorem witness_ChunkBoundariesDoNotMatter :
    (session 5).err = 0#3 ∧ [seq 10, [], seq 60 10].flatten.length ≤ 2 ^ 64 - 2 := by decide +kernel

/-- Two states of 3 pending bytes, one of them with a stale cell. -/
theorem witness_StaleCellsCannotBeObserved :
    SameUpToStale (session 3) { session 3 with buf := cells 6 } ∧ session 3 ≠ { session 3 with buf := cells 6 } ∧
    ∃ s', Host.Core.run Sys2Proof.core 1 (session 3) = .next s' := by
  refine ⟨⟨rfl, ?_⟩, by decide +kernel, answers (by decide +kernel)⟩
  decide +kernel

/-- Each command, without a fault and with one. -/
theorem witness_CommandsWriteOnlyTheirState :
    (∃ t, exec (.init (some s1)) (session 5) = .next t) ∧
    (∃ t, exec (.update (seq 60 10)) (session 10) = .next t) ∧
    (∃ t, exec .finalize (session 3) = .next t ∧ (session 3).count.toNat < 64) ∧
    (∃ t, exec .finalize (session 70) = .next t) ∧ (∃ t, exec (.hash none []) finalized = .next t) ∧
    ∃ t, exec .finalize State.reset = .next t ∧ t.err ≠ State.reset.err :=
  ⟨answers (by decide +kernel), answers (by decide +kernel),
    answers_with (by decide +kernel), answers (by decide +kernel),
    answers (by decide +kernel), answers_with (by decide +kernel)⟩

theorem witness_CounterAddsAndNeverWraps :
    (session (2 ^ 64 - 2)).count.toNat ≤ 2 ^ 64 - 2 ∧
    (∃ t, exec (.update [0x61#8]) (session (2 ^ 64 - 2)) = .next t ∧ t.err ≠ 0#3) ∧
    ∃ t, exec (.update [0x61#8]) (session (2 ^ 64 - 3)) = .next t ∧ t.err = 0#3 :=
  ⟨by decide +kernel, answers_with (by decide +kernel), answers_with (by decide +kernel)⟩

end Sys2Proof.Tests
end

section
/-! PROOF. One step on a packet (00_scope R7, 60 R165). -/

namespace Sys2Proof.Proofs

open Sys2Proof Sys2Proof.Machine

/-- Settles O21: of the step's branches, the packet taken shuts out waiting and the reset event, `err = 0` shuts out
the refusal, and the legal decoding shuts out `IllegalCommand`. -/
theorem stepRunsTheDecodedCommand : Obligations.StepRunsTheDecodedCommand := by
  unfold Obligations.StepRunsTheDecodedCommand
  intro s p rest i herr hcmds hdecode
  have htake : takeEvent s = some (.packet p, { s with cmds := rest }) := takeEvent_cons hcmds
  have hlive : faulted { s with cmds := rest } = false := faulted_eq_false.2 herr
  simp [step, htake, hlive, hdecode]

end Sys2Proof.Proofs
end

section
/-! PROOF. The payload steps of UPDATE and the digest steps of FINALIZE as equations, one per case (43_incremental
R142, R143), and what the pending cells, `R` and the lanes are after a payload. -/

namespace Sys2Proof.Proofs

open Sys2Proof Sys2Proof.Machine

/-! ### UPDATE's payload, case by case -/

theorem addCount_zero (c : BitVec 64) : addCount c 0 = c := by
  simp [addCount]

/-- `R` after a count: 64 divides `2^64`, so this needs no bound on the count (10_state R26). -/
theorem addCount_mod64 (c : BitVec 64) (n : Nat) : (addCount c n).toNat % 64 = (c.toNat % 64 + n) % 64 := by
  rw [addCount, BitVec.toNat_ofNat]
  omega

theorem absorbPayload_nil (s : State) : absorbPayload [] s = .ok s := rfl

/-- A payload that does not fill the pending cells is stored behind them (43 R142 step (a)). -/
theorem absorbPayload_short {data : List Byte} {s : State} (hne : data ≠ []) (hr : 0 < remainder s)
    (hlt : remainder s + data.length < 64) :
    absorbPayload data s = .ok { s with
      buf := writeCells s.buf (remainder s) data
      count := addCount s.count data.length } := by
  have hn : data.length ≠ 0 := fun h => hne (List.length_eq_zero_iff.1 h)
  have hk : topUp (remainder s) data.length = data.length := by unfold topUp; omega
  unfold absorbPayload
  simp only [hk, slice_all, bufWrite_eq hlt.le]
  rw [if_neg hn, if_pos hr, if_neg hlt.ne]

/-- A payload that fills the pending cells: the completed buffer, then the rest (43 R142). -/
theorem absorbPayload_fill {data blk : List Byte} {s : State} (hr : 0 < remainder s)
    (hge : 64 ≤ remainder s + data.length) (hb : bufRead (toppedUp data s) 0 64 = .ok blk) :
    absorbPayload data s =
      absorbRest data (64 - remainder s) { s with buf := toppedUp data s, lanes := absorb64 s.lanes blk } := by
  have hr64 := remainder_lt s
  have hn : data.length ≠ 0 := by omega
  have hk : topUp (remainder s) data.length = 64 - remainder s := by unfold topUp; omega
  have hw : bufWrite s.buf (remainder s) (slice data 0 (64 - remainder s)) = .ok (toppedUp data s) := by
    rw [bufWrite_eq (by rw [slice_length]; omega), toppedUp, hk, slice, List.drop_zero]
  unfold absorbPayload
  simp only [hk, hw, hb]
  rw [if_neg hn, if_pos hr, if_pos (by omega)]

/-- With no byte pending the payload goes straight to the bulk loop (43 R142). -/
theorem absorbPayload_aligned {data : List Byte} {s : State} (hne : data ≠ []) (hr : remainder s = 0) :
    absorbPayload data s = absorbRest data 0 s := by
  simp [absorbPayload, hr, hne]

/-! ### `COUNT`, `R` and the pending cells after a payload -/

theorem absorbPayload_addCount {data : List Byte} {s u : State} (h : absorbPayload data s = .ok u) :
    u.count = addCount s.count data.length := by
  rcases absorbPayload_cases h with ⟨rfl, rfl⟩ | ⟨_, _, _, rfl⟩ | ⟨_, _, _, blk, _, h⟩ | ⟨_, _, h⟩
  · exact (addCount_zero _).symm
  · rfl
  · rw [absorbRest_eq _ (by omega)] at h
    cases h
    rfl
  · rw [absorbRest_eq _ (Nat.zero_le _)] at h
    cases h
    rfl

theorem absorbPayload_remainder {data : List Byte} {s u : State} (h : absorbPayload data s = .ok u) :
    remainder u = (remainder s + data.length) % 64 := by
  rw [remainder, absorbPayload_addCount h, addCount_mod64, remainder]

/-- The bulk loop leaves the end of the payload in the cells from 0 on (43 R142 step (c)). -/
theorem absorbRest_read {data : List Byte} {p i : Nat} {s u : State} (hp : p ≤ data.length)
    (h : absorbRest data p s = .ok u) (hi : i < (data.length - p) % 64) :
    u.buf.read i = data[p + 64 * ((data.length - p) / 64) + i]? := by
  rw [absorbRest_eq s hp] at h
  cases h
  rw [read_writeCells, fullBlocks, if_pos (by rw [List.length_drop]; omega), List.getElem?_drop, Nat.sub_zero]

/-- Each pending cell after a payload (43 R142): a pending byte of before, or a byte of the payload. -/
theorem absorbPayload_read {data : List Byte} {s u : State} (h : absorbPayload data s = .ok u) {i : Nat}
    (hi : i < remainder u) :
    u.buf.read i =
      if remainder s + data.length < 64 then
        if i < remainder s then s.buf.read i else data[i - remainder s]?
      else data[64 * ((remainder s + data.length) / 64) - remainder s + i]? := by
  have hr := remainder_lt s
  rw [absorbPayload_remainder h] at hi
  rcases absorbPayload_cases h with ⟨rfl, rfl⟩ | ⟨_, _, hlt, rfl⟩ | ⟨_, _, hge, blk, _, h⟩ | ⟨hne, h0, h⟩
  · simp only [List.length_nil] at hi ⊢
    rw [if_pos (by omega), if_pos (by omega)]
  · rw [if_pos hlt, read_writeCells]
    by_cases hir : i < remainder s
    · rw [if_neg (by omega), if_pos hir]
    · rw [if_pos (by omega), if_neg hir]
  · rw [if_neg (by omega), absorbRest_read (by omega) h (by omega)]
    congr 1
    omega
  · rw [absorbRest_read (Nat.zero_le _) h (by omega), h0]
    by_cases hlt : 0 + data.length < 64
    · rw [if_pos hlt, if_neg (Nat.not_lt_zero i)]
      congr 1
      omega
    · rw [if_neg hlt]
      congr 1
      omega

/-- The lanes after a payload absorb the pending bytes and the payload as one string (43 R142). -/
theorem absorbPayload_lanes {data pend : List Byte} {s u : State} (h : absorbPayload data s = .ok u)
    (hl : pend.length = remainder s) (hp : ∀ i < remainder s, s.buf.read i = pend[i]?) :
    u.lanes = absorbRun (pend ++ data) ((pend ++ data).length / 64) 0 s.lanes := by
  have hr := remainder_lt s
  rw [List.length_append]
  rcases absorbPayload_cases h with ⟨rfl, rfl⟩ | ⟨_, _, hlt, rfl⟩ | ⟨_, _, hge, blk, hb, h⟩ | ⟨_, h0, h⟩
  · rw [List.length_nil, Nat.div_eq_of_lt (by omega)]
    rfl
  · rw [Nat.div_eq_of_lt (by omega)]
    rfl
  · have hblk : slice (pend ++ data) 0 64 = blk := by
      obtain ⟨-, hlen, hcell⟩ := bufRead_ok hb
      have hk : topUp (remainder s) data.length = 64 - remainder s := by unfold topUp; omega
      apply List.ext_getElem?
      intro j
      rw [slice_getElem?, Nat.zero_add]
      by_cases hj : j < 64
      · rw [if_pos hj, ← hcell j hj, Nat.zero_add, toppedUp, read_writeCells, hk, List.length_take]
        by_cases hjr : j < remainder s
        · rw [if_neg (by omega), hp j hjr, List.getElem?_append_left (by omega)]
        · rw [if_pos (by omega), List.getElem?_append_right (by omega), List.getElem?_take_of_lt (by omega), hl]
      · rw [if_neg hj, List.getElem?_eq_none (by omega)]
    have hblocks : (pend.length + data.length) / 64 = 1 + fullBlocks data.length (64 - remainder s) := by
      unfold fullBlocks; omega
    rw [absorbRest_eq _ (by omega)] at h
    cases h
    rw [hblocks, absorbRun_add, absorbRun_append_right _ _ _ _ _ (by omega), hl]
    simp only [absorbRun, hblk, Nat.zero_add, Nat.mul_one]
  · have hnil : pend = [] := List.length_eq_zero_iff.1 (by omega)
    rw [absorbRest_eq _ (Nat.zero_le _)] at h
    cases h
    simp [hnil, fullBlocks]

/-! ### FINALIZE's digest, case by case -/

theorem closeSession_short {c : Cfg} {s : State} {d : List Byte} (hc : s.count.toNat < 64)
    (hb : bufRead s.buf 0 s.count.toNat = .ok d) :
    closeSession c s = .ok { s with acc := smallKey c d s.seed, phase := .finalized } := by
  simp [closeSession, shortSession, hc, hb]

theorem closeSession_long {c : Cfg} {s : State} {d : List Byte} (hc : 64 ≤ s.count.toNat)
    (hb : bufRead s.buf 0 (remainder s) = .ok d) :
    closeSession c s = .ok { s with
      lanes := xLane (tailL c s.lanes d)
      acc := mix (reduce (xLane (tailL c s.lanes d))) c.k9k10
      phase := .finalized } := by
  simp [closeSession, shortSession, hb, Nat.not_lt.2 hc]

end Sys2Proof.Proofs
end

section
/-! PROOF. Everything an answered command can be, said once for the four commands (60_exceptions R165, R166), and the
statements about the status byte, `ERR` and the access matrix that follow from it. -/

namespace Sys2Proof.Proofs

open Sys2Proof Sys2Proof.Machine

/-! ### A command that passes its tests -/

/-- The command `i`, its tests passed in `s`, has written its registers and cells, giving `u`; the response is still
to be sent. -/
def Completes (i : Instr) (s u : State) : Prop :=
  match i with
  | .init seed => u = openSession Config.cfg (seedOr seed) s
  | .update data =>
    s.phase = .active ∧ s.count.toNat + data.length ≤ maxInput ∧ absorbPayload data s = .ok u
  | .finalize => s.phase = .active ∧ closeSession Config.cfg s = .ok u
  | .hash seed data =>
    data.length ≤ maxInput ∧
      ∃ w, absorbPayload data (openSession Config.cfg (seedOr seed) s) = .ok w ∧ closeSession Config.cfg w = .ok u

/-- The fault of a phase test is one that 60 R165 lists for the phase. -/
theorem codeAllowed_phaseFault {p : Phase} {f : EngineFault} (h : phaseFault p = some f) :
    codeAllowed p (faultCode f) = true := by
  cases p <;> cases h <;> rfl

theorem codeAllowed_lengthOverflow (p : Phase) : codeAllowed p (faultCode .lengthOverflow) = true := by
  cases p <;> rfl

theorem codeAllowed_illegalCommand (p : Phase) : codeAllowed p (faultCode .illegalCommand) = true := by
  cases p <;> rfl

/-- An answered command was refused, or raised a fault that 60 R165 lists for the phase, or completed and sent the
status byte with or without the digest. -/
theorem exec_cases {i : Instr} {s t : State} (h : exec i s = .next t) :
    (s.err ≠ 0#3 ∧ t = respondStatus s) ∨
    (s.err = 0#3 ∧ ∃ f, codeAllowed s.phase (faultCode f) = true ∧ t = raise f s) ∨
    (s.err = 0#3 ∧ ∃ u, Completes i s u ∧ (t = respondStatus u ∨ t = respondDigest u)) := by
  cases i with
  | init seed =>
    rcases initCommand_cases h with hrefused | ⟨he, ht⟩
    · exact .inl hrefused
    · exact .inr (.inr ⟨he, _, rfl, .inl ht⟩)
  | update data =>
    rcases updateCommand_cases h with hrefused | ⟨he, f, hf, ht⟩ | ⟨he, _, _, ht⟩ | ⟨he, hp, hc, u, hu, ht⟩
    · exact .inl hrefused
    · exact .inr (.inl ⟨he, f, codeAllowed_phaseFault hf, ht⟩)
    · exact .inr (.inl ⟨he, _, codeAllowed_lengthOverflow _, ht⟩)
    · exact .inr (.inr ⟨he, u, ⟨hp, hc, hu⟩, .inl ht⟩)
  | finalize =>
    rcases finalizeCommand_cases h with hrefused | ⟨he, f, hf, ht⟩ | ⟨he, hp, u, hu, ht⟩
    · exact .inl hrefused
    · exact .inr (.inl ⟨he, f, codeAllowed_phaseFault hf, ht⟩)
    · exact .inr (.inr ⟨he, u, ⟨hp, hu⟩, .inr ht⟩)
  | hash seed data =>
    rcases hashCommand_cases h with hrefused | ⟨he, _, ht⟩ | ⟨he, hl, w, u, hw, hu, ht⟩
    · exact .inl hrefused
    · exact .inr (.inl ⟨he, _, codeAllowed_lengthOverflow _, ht⟩)
    · exact .inr (.inr ⟨he, u, ⟨hl, w, hw, hu⟩, .inr ht⟩)

/-- No command that completes writes `ERR` or a channel of the host. -/
theorem completes_frame {i : Instr} {s u : State} (h : Completes i s u) :
    u.err = s.err ∧ u.cmds = s.cmds ∧ u.resps = s.resps := by
  cases i with
  | init seed =>
    cases h
    exact ⟨rfl, rfl, rfl⟩
  | update data =>
    obtain ⟨-, -, hu⟩ := h
    rw [absorbPayload_frame hu]
    exact ⟨rfl, rfl, rfl⟩
  | finalize =>
    obtain ⟨-, hu⟩ := h
    rw [closeSession_frame hu]
    exact ⟨rfl, rfl, rfl⟩
  | hash seed data =>
    obtain ⟨-, w, hw, hu⟩ := h
    rw [closeSession_frame hu, absorbPayload_frame hw]
    exact ⟨rfl, rfl, rfl⟩

/-! ### The status byte -/

/-- The fields of the status byte (10_state R29). -/
theorem statusByte_fields (s : State) :
    (statusByte s).extractLsb' 0 3 = s.err ∧ (statusByte s).extractLsb' 3 2 = phaseCode s.phase ∧
      (statusByte s).extractLsb' 5 3 = 0#3 := by
  unfold statusByte
  generalize phaseCode s.phase = p
  generalize s.err = e
  revert p e
  decide

/-- A command's one response begins with the status byte after it (30_encoding R69). -/
theorem exec_response {i : Instr} {s t : State} (h : exec i s = .next t) :
    ∃ digest, t.resps = s.resps ++ [statusByte t :: digest] := by
  rcases exec_cases h with ⟨_, rfl⟩ | ⟨_, f, _, rfl⟩ | ⟨_, u, hu, rfl | rfl⟩
  · exact ⟨[], rfl⟩
  · exact ⟨[], raise_resps f s⟩
  · obtain ⟨-, -, hresps⟩ := completes_frame hu
    exact ⟨[], by rw [respondStatus_resps, hresps]; rfl⟩
  · obtain ⟨-, -, hresps⟩ := completes_frame hu
    exact ⟨bytesOf u.acc, by rw [respondDigest_resps, hresps]; rfl⟩

/-- So does a step's, whatever packet it takes (10_state R29). -/
theorem step_response {s t : State} {p : List Byte} {rest : List HostEvent} (hc : s.cmds = .packet p :: rest)
    (h : step s = .next t) : ∃ digest, t.resps = s.resps ++ [statusByte t :: digest] := by
  rcases step_cases h with ⟨hnil, _⟩ | ⟨_, hreset, _⟩ | ⟨_, _, _, _, rfl⟩ | ⟨_, _, _, _, _, _, rfl⟩ |
    ⟨_, rest', i, _, _, _, hi⟩
  · simp [hc] at hnil
  · simp [hc] at hreset
  · exact ⟨[], rfl⟩
  · exact ⟨[], raise_resps _ _⟩
  · exact (exec_response hi :)

/-- Settles O25: the fields by their place in the byte, the response by the cases of a step. -/
theorem statusByteLayout : Obligations.StatusByteLayout := by
  unfold Obligations.StatusByteLayout
  refine ⟨fun s => ?_, fun s t p rest hc h => step_response hc h⟩
  obtain ⟨herr, hphase, hzero⟩ := statusByte_fields s
  refine ⟨herr, hphase.trans ?_, hzero⟩
  cases s.phase <;> rfl

/-! ### `ERR` and the reset state -/

/-- Settles O33: with a fault latched a step waits, resets or refuses; the other branches need `ERR = 0`. -/
theorem onlyResetClearsErr : Obligations.OnlyResetClearsErr := by
  unfold Obligations.OnlyResetClearsErr
  intro s t h herr
  rcases step_cases h with ⟨_, rfl⟩ | ⟨rest, hreset, _⟩ | ⟨_, _, _, _, rfl⟩ | ⟨_, _, _, _, hok, _⟩ |
    ⟨_, _, _, _, hok, _⟩
  · exact .inl rfl
  · exact .inr ⟨rest, hreset⟩
  · exact .inl rfl
  · exact absurd hok herr
  · exact absurd hok herr

/-- Settles O24: each value as `State.reset` gives it. -/
theorem resetStateHasTheStatedValues : Obligations.ResetStateHasTheStatedValues :=
  ⟨reset_phase, reset_err, reset_count, Memory.read_nil⟩

/-! ### The access matrix -/

/-- Fault entry writes no register but `ERR`, and no cell (60 R166). -/
theorem raise_registers (f : EngineFault) (s : State) :
    registers (raise f s) = registers { s with err := (raise f s).err } ∧ (raise f s).buf = s.buf := by
  simp [registers]

/-- What an UPDATE that completes leaves (43 R142). -/
theorem completes_update {data : List Byte} {s u : State} (h : Completes (.update data) s u) :
    u.acc = s.acc ∧ u.seed = s.seed ∧ u.phase = s.phase := by
  obtain ⟨-, -, hu⟩ := h
  rw [absorbPayload_frame hu]
  exact ⟨rfl, rfl, rfl⟩

/-- What a FINALIZE that completes leaves (43 R143): the small-key path has no use of the lanes. -/
theorem completes_finalize {s u : State} (h : Completes .finalize s u) :
    u.seed = s.seed ∧ u.count = s.count ∧ u.buf = s.buf ∧ (s.count.toNat < 64 → u.lanes = s.lanes) := by
  obtain ⟨-, hu⟩ := h
  rcases closeSession_cases hu with ⟨_, d, _, rfl⟩ | ⟨hlong, d, _, rfl⟩
  · exact ⟨rfl, rfl, rfl, fun _ => rfl⟩
  · exact ⟨rfl, rfl, rfl, fun hshort => by omega⟩

/-- A command leaves the host's command channel, and one that changes `ERR` changes nothing else of the engine. -/
theorem exec_frame {i : Instr} {s t : State} (h : exec i s = .next t) :
    t.cmds = s.cmds ∧ (t.err ≠ s.err → registers t = registers { s with err := t.err } ∧ t.buf = s.buf) := by
  rcases exec_cases h with ⟨_, rfl⟩ | ⟨_, f, _, rfl⟩ | ⟨_, u, hu, rfl | rfl⟩
  · exact ⟨rfl, fun _ => ⟨rfl, rfl⟩⟩
  · exact ⟨raise_cmds f s, fun _ => raise_registers f s⟩
  · obtain ⟨herr, hcmds, -⟩ := completes_frame hu
    exact ⟨hcmds, fun hne => absurd herr hne⟩
  · obtain ⟨herr, hcmds, -⟩ := completes_frame hu
    exact ⟨hcmds, fun hne => absurd herr hne⟩

/-- INIT leaves `ACC`, `BUF` and `ERR` (10_state R32). -/
theorem exec_init_frame {seed : Option V128} {s t : State} (h : exec (.init seed) s = .next t) :
    t.acc = s.acc ∧ t.buf = s.buf ∧ t.err = s.err := by
  rcases initCommand_cases h with ⟨_, rfl⟩ | ⟨_, rfl⟩ <;> exact ⟨rfl, rfl, rfl⟩

/-- UPDATE leaves `ACC`, `SEED` and `PHASE`, faulting or not (10_state R32). -/
theorem exec_update_frame {data : List Byte} {s t : State} (h : exec (.update data) s = .next t) :
    t.acc = s.acc ∧ t.seed = s.seed ∧ t.phase = s.phase := by
  rcases exec_cases h with ⟨_, rfl⟩ | ⟨_, f, _, rfl⟩ | ⟨_, u, hu, ht⟩
  · exact ⟨rfl, rfl, rfl⟩
  · simp
  · have hleaves := completes_update hu
    rcases ht with rfl | rfl <;> exact hleaves

/-- FINALIZE leaves `SEED`, `COUNT` and `BUF`, and the lanes of a short session, faulting or not (10_state R32). -/
theorem exec_finalize_frame {s t : State} (h : exec .finalize s = .next t) :
    t.seed = s.seed ∧ t.count = s.count ∧ t.buf = s.buf ∧ (s.count.toNat < 64 → t.lanes = s.lanes) := by
  rcases exec_cases h with ⟨_, rfl⟩ | ⟨_, f, _, rfl⟩ | ⟨_, u, hu, ht⟩
  · exact ⟨rfl, rfl, rfl, fun _ => rfl⟩
  · simp
  · have hleaves := completes_finalize hu
    rcases ht with rfl | rfl <;> exact hleaves

/-- Settles O52: the channel and the fault entry are the same for every command, the rest is per command. -/
theorem commandsWriteOnlyTheirState : Obligations.CommandsWriteOnlyTheirState := by
  unfold Obligations.CommandsWriteOnlyTheirState
  intro i s t h
  obtain ⟨hcmds, hfault⟩ := exec_frame h
  refine ⟨hcmds, ?_, hfault⟩
  cases i with
  | init seed => exact exec_init_frame h
  | update data => exact exec_update_frame h
  | finalize => exact exec_finalize_frame h
  | hash seed data => trivial

end Sys2Proof.Proofs
end

section
/-! PROOF. The invariant of a state between commands (10_state R24, R33, R37; 60_exceptions R165): the reset state
meets it, and every step keeps it. -/

namespace Sys2Proof.Proofs

open Sys2Proof Sys2Proof.Machine

/-- A state with `COUNT = 0` has no pending byte. -/
theorem remainder_of_count_zero {s : State} (h : s.count = 0#64) : remainder s = 0 := by
  simp [remainder, h]

/-- Settles O27: no cell is listed and none is pending, `COUNT` is 0, no fault is latched. -/
theorem resetMeetsTheInvariant : Obligations.ResetMeetsTheInvariant := by
  unfold Obligations.ResetMeetsTheInvariant
  refine ⟨Memory.reset_wf, fun i hi => ?_, Nat.zero_le _, fun _ => reset_count, rfl⟩
  rw [remainder_of_count_zero reset_count] at hi
  exact absurd hi (Nat.not_lt_zero i)

/-- Fault entry keeps the invariant when the phase can latch the fault (60 R165, R166). -/
theorem raise_engineInv {f : EngineFault} {s : State} (hs : EngineInv s) (hok : s.err = 0#3)
    (hf : codeAllowed s.phase (faultCode f) = true) : EngineInv (raise f s) := by
  obtain ⟨hwf, hpend, hmax, hidle, -⟩ := hs
  rw [raise_of_ok f hok]
  exact ⟨hwf, hpend, hmax, hidle, hf⟩

/-- A session just opened meets the invariant over any buffer in canonical form (43 R141). -/
theorem openSession_engineInv {c : Cfg} {v : V128} {s : State} (hwf : Memory.wf s.buf) (hok : s.err = 0#3) :
    EngineInv (openSession c v s) := by
  refine ⟨hwf, fun i hi => ?_, Nat.zero_le _, fun _ => rfl, ?_⟩
  · rw [remainder_of_count_zero (openSession_count c v s)] at hi
    exact absurd hi (Nat.not_lt_zero i)
  · rw [openSession_phase, openSession_err, hok]
    rfl

/-- A payload leaves the pending cells with values (10_state R33 item 1). -/
theorem absorbPayload_pendingReadable {data : List Byte} {s u : State} (h : absorbPayload data s = .ok u)
    (hs : PendingReadable s) : PendingReadable u := by
  intro i hi
  have hr := remainder_lt s
  rw [absorbPayload_read h hi]
  rw [absorbPayload_remainder h] at hi
  split
  · split
    · exact hs i ‹_›
    · simp only [isSome_getElem?]
      omega
  · simp only [isSome_getElem?]
    omega

/-- The payload steps keep the invariant of an active session (10_state R33). -/
theorem absorbPayload_engineInv {data : List Byte} {s u : State} (h : absorbPayload data s = .ok u)
    (hs : EngineInv s) (hactive : s.phase = .active) (hc : s.count.toNat + data.length ≤ maxInput) :
    EngineInv u := by
  obtain ⟨hwf, hpend, -, -, hcode⟩ := hs
  have hframe := absorbPayload_frame h
  have hphase : u.phase = s.phase := by rw [hframe]
  have herr : u.err = s.err := by rw [hframe]
  refine ⟨absorbPayload_wf h hwf, absorbPayload_pendingReadable h hpend, ?_, fun hidle => ?_, ?_⟩
  · rw [absorbPayload_count h hc]
    exact hc
  · rw [hphase, hactive] at hidle
    cases hidle
  · rw [hphase, herr]
    exact hcode

/-- The digest steps keep the invariant: `COUNT` and the buffer stay (43 R143). -/
theorem closeSession_engineInv {c : Cfg} {s u : State} (h : closeSession c s = .ok u) (hs : EngineInv s)
    (hok : s.err = 0#3) : EngineInv u := by
  obtain ⟨hwf, hpend, hmax, -, -⟩ := hs
  have hcode : codeAllowed .finalized s.err = true := by rw [hok]; rfl
  rw [closeSession_frame h]
  exact ⟨hwf, hpend, hmax, nofun, hcode⟩

/-- A command that completes keeps the invariant. -/
theorem completes_engineInv {i : Instr} {s u : State} (h : Completes i s u) (hs : EngineInv s)
    (hok : s.err = 0#3) : EngineInv u := by
  have hwf : Memory.wf s.buf := hs.left
  cases i with
  | init seed =>
    cases h
    exact openSession_engineInv hwf hok
  | update data =>
    obtain ⟨hactive, hc, hu⟩ := h
    exact absorbPayload_engineInv hu hs hactive hc
  | finalize =>
    obtain ⟨-, hu⟩ := h
    exact closeSession_engineInv hu hs hok
  | hash seed data =>
    obtain ⟨hlen, w, hw, hu⟩ := h
    have hw_inv : EngineInv w :=
      absorbPayload_engineInv hw (openSession_engineInv hwf hok) rfl (by simpa using hlen)
    have hw_ok : w.err = 0#3 := by
      rw [absorbPayload_frame hw]
      exact hok
    exact closeSession_engineInv hu hw_inv hw_ok

/-- Every command keeps the invariant; a response is no part of it. -/
theorem exec_engineInv {i : Instr} {s t : State} (h : exec i s = .next t) (hs : EngineInv s) : EngineInv t := by
  rcases exec_cases h with ⟨_, rfl⟩ | ⟨hok, f, hf, rfl⟩ | ⟨hok, u, hu, ht⟩
  · exact hs
  · exact raise_engineInv hs hok hf
  · have hinv := completes_engineInv hu hs hok
    rcases ht with rfl | rfl <;> exact hinv

/-- Settles O28, by the cases of a step: waiting and refusing keep registers and cells, the reset event gives those of
the reset state, an illegal packet raises a code that every phase can latch, and a legal one is executed. -/
theorem stepKeepsTheInvariant : Obligations.StepKeepsTheInvariant := by
  unfold Obligations.StepKeepsTheInvariant
  intro s t hs h
  rcases step_cases h with ⟨_, rfl⟩ | ⟨_, _, rfl⟩ | ⟨_, _, _, _, rfl⟩ | ⟨_, _, _, _, hok, _, rfl⟩ |
    ⟨_, _, _, _, _, _, hexec⟩
  · exact hs
  · exact resetMeetsTheInvariant
  · exact hs
  · exact raise_engineInv hs hok (codeAllowed_illegalCommand _)
  · exact exec_engineInv hexec hs

end Sys2Proof.Proofs
end

section
/-! PROOF. A session and the bytes it has accepted (10_state R33 items 1 to 4; 43_incremental R142): UPDATE extends
the stream by its payload. -/

namespace Sys2Proof.Proofs

open Sys2Proof Sys2Proof.Machine

/-! ### The pending bytes of a stream -/

/-- The bytes of a stream after its last full super-block. -/
def pendingOf (stream : List Byte) : List Byte := stream.drop (64 * (stream.length / 64))

theorem pendingOf_length (stream : List Byte) : (pendingOf stream).length = stream.length % 64 := by
  rw [pendingOf, List.length_drop]
  omega

theorem pendingOf_getElem? (stream : List Byte) (i : Nat) :
    (pendingOf stream)[i]? = stream[64 * (stream.length / 64) + i]? := List.getElem?_drop

/-- `R` of a session is the number of its stream's pending bytes. -/
theorem accepted_remainder {c : Cfg} {seed : V128} {stream : List Byte} {s : State} (h : Accepted c seed stream s) :
    remainder s = (pendingOf stream).length := by
  obtain ⟨-, -, -, hcount, -, -⟩ := h
  rw [remainder, hcount, pendingOf_length]

/-- The pending cells of a session hold its stream's pending bytes. -/
theorem accepted_read {c : Cfg} {seed : V128} {stream : List Byte} {s : State} (h : Accepted c seed stream s)
    {i : Nat} (hi : i < remainder s) : s.buf.read i = (pendingOf stream)[i]? := by
  rw [accepted_remainder h, pendingOf_length] at hi
  obtain ⟨-, -, -, -, -, hcells⟩ := h
  rw [hcells i hi, pendingOf_getElem?]

theorem accepted_pendingReadable {c : Cfg} {seed : V128} {stream : List Byte} {s : State}
    (h : Accepted c seed stream s) : PendingReadable s := by
  intro i hi
  rw [accepted_read h hi, isSome_getElem?, ← accepted_remainder h]
  exact hi

/-- Absorbing a stream and then its pending bytes with `data` behind them is absorbing the whole. -/
theorem absorbRun_extend (stream data : List Byte) (l : Lanes) :
    absorbRun (pendingOf stream ++ data) ((pendingOf stream ++ data).length / 64) 0
        (absorbRun stream (stream.length / 64) 0 l) =
      absorbRun (stream ++ data) ((stream ++ data).length / 64) 0 l := by
  have hsplit : stream ++ data = stream.take (64 * (stream.length / 64)) ++ (pendingOf stream ++ data) := by
    rw [pendingOf, ← List.append_assoc, List.take_append_drop]
  have hhead : (stream.take (64 * (stream.length / 64))).length = 64 * (stream.length / 64) := by
    rw [List.length_take]
    omega
  have hblocks : (stream ++ data).length / 64 = stream.length / 64 + (pendingOf stream ++ data).length / 64 := by
    rw [List.length_append, List.length_append, pendingOf_length]
    omega
  have hfirst : absorbRun (stream ++ data) (stream.length / 64) 0 l = absorbRun stream (stream.length / 64) 0 l :=
    absorbRun_append_left _ _ _ _ _ (by omega)
  have hrest (n : Nat) (l' : Lanes) :
      absorbRun (stream ++ data) n (64 * (stream.length / 64)) l' = absorbRun (pendingOf stream ++ data) n 0 l' := by
    rw [hsplit, absorbRun_append_right _ _ _ _ _ hhead.le, hhead, Nat.sub_self]
  rw [hblocks, absorbRun_add, hfirst, Nat.zero_add, hrest]

/-! ### UPDATE -/

/-- An UPDATE that passes its tests answers with the state after its payload (43 R142). -/
theorem updateCommand_completes {data : List Byte} {s u : State} (hok : s.err = 0#3) (hactive : s.phase = .active)
    (hc : s.count.toNat + data.length ≤ maxInput) (hu : absorbPayload data s = .ok u) :
    updateCommand data s = .next (respondStatus u) := by
  rw [updateCommand, unlessFaulted_of_ok hok]
  simp [hactive, phaseFault, overflows_eq_false.2 hc, finish, hu]

/-- The pending cells after a payload hold the pending bytes of the longer stream (10_state R33). -/
theorem absorbPayload_read_stream {c : Cfg} {seed : V128} {stream data : List Byte} {s u : State}
    (hs : Accepted c seed stream s) (h : absorbPayload data s = .ok u) {i : Nat} (hi : i < remainder u) :
    u.buf.read i = (pendingOf (stream ++ data))[i]? := by
  have hr := accepted_remainder hs
  rw [pendingOf_length] at hr
  rw [absorbPayload_read h hi, pendingOf_getElem?, List.length_append]
  by_cases hlt : remainder s + data.length < 64
  · rw [if_pos hlt]
    by_cases hir : i < remainder s
    · rw [if_pos hir, accepted_read hs hir, pendingOf_getElem?, List.getElem?_append_left (by omega)]
      congr 1
      omega
    · rw [if_neg hir, List.getElem?_append_right (by omega)]
      congr 1
      omega
  · rw [if_neg hlt, List.getElem?_append_right (by omega)]
    congr 1
    omega

/-- The payload steps take a session of `stream` to a session of `stream ++ data`. -/
theorem absorbPayload_accepted {c : Cfg} {seed : V128} {stream data : List Byte} {s u : State}
    (hs : Accepted c seed stream s) (h : absorbPayload data s = .ok u)
    (hc : s.count.toNat + data.length ≤ maxInput) : Accepted c seed (stream ++ data) u := by
  have hlanes := absorbPayload_lanes h (accepted_remainder hs).symm fun i hi => accepted_read hs hi
  have hcount := absorbPayload_count h hc
  have ⟨hactive, hseed, _, hlen, habsorbed, _⟩ := hs
  have hframe := absorbPayload_frame h
  have hlen' : u.count.toNat = (stream ++ data).length := by rw [hcount, hlen, List.length_append]
  have hr : remainder u = (stream ++ data).length % 64 := by rw [remainder, hlen']
  refine ⟨?_, ?_, ?_, hlen', ?_, fun i hi => ?_⟩
  · rw [hframe]
    exact hactive
  · rw [hframe]
    exact hseed
  · rw [List.length_append, ← hlen]
    exact hc
  · rw [hlanes, habsorbed, absorbRun_extend]
  · rw [absorbPayload_read_stream hs h (by rwa [hr]), pendingOf_getElem?]

/-- Settles O48: the pending cells of a session hold values, so the payload steps answer, and what they answer is the
session of the longer stream. -/
theorem updateExtendsTheStream : Obligations.UpdateExtendsTheStream := by
  unfold Obligations.UpdateExtendsTheStream
  intro c seed stream data s hok hs hfits
  have ⟨hactive, _, _, hlen, _, _⟩ := hs
  have hc : s.count.toNat + data.length ≤ maxInput := by
    rw [hlen]
    exact hfits
  obtain ⟨u, hu⟩ := absorbPayload_answers (data := data) (accepted_pendingReadable hs)
  have herr : u.err = 0#3 := by
    rw [absorbPayload_frame hu]
    exact hok
  have haccepted := absorbPayload_accepted hs hu hc
  exact ⟨respondStatus u, updateCommand_completes hok hactive hc hu, herr, haccepted⟩

end Sys2Proof.Proofs
end

section
/-! PROOF. Stale buffer cells, those at index `R` or above, cannot be observed (10_state R33 item 5): two states that
differ in such cells only take the same steps. -/

namespace Sys2Proof.Proofs

open Sys2Proof Sys2Proof.Machine

/-! ### States and outcomes that differ in stale cells only -/

/-- The other state is the first one over another buffer, with the same pending cells. -/
theorem sameUpToStale_iff {s t : State} :
    SameUpToStale s t ↔ ∃ m : Memory, t = { s with buf := m } ∧ ∀ i < remainder s, s.buf.read i = m.read i := by
  constructor
  · rintro ⟨hregs, hcells⟩
    exact ⟨t.buf, hregs, hcells⟩
  · rintro ⟨m, rfl, hcells⟩
    exact ⟨rfl, hcells⟩

theorem remainder_setBuf (s : State) (m : Memory) : remainder { s with buf := m } = remainder s := rfl

theorem sameUpToStale_setBuf {s : State} {m : Memory} (h : ∀ i < remainder s, s.buf.read i = m.read i) :
    SameUpToStale s { s with buf := m } := ⟨rfl, h⟩

/-- When `o` answers, `o'` answers as well, in a state that differs in stale cells only. -/
def AnswersAlike (o o' : Host.Outcome State Fault Refusal) : Prop :=
  ∀ u, o = .next u → ∃ u', o' = .next u' ∧ SameUpToStale u u'

theorem answersAlike_next {u u' : State} (h : SameUpToStale u u') : AnswersAlike (.next u) (.next u') := by
  rintro w ⟨⟩
  exact ⟨u', rfl, h⟩

/-! ### Responses, faults, the refusal: `COUNT` and the buffer stay, and so do the stale cells -/

theorem respondStatus_alike {s t : State} (h : SameUpToStale s t) :
    SameUpToStale (respondStatus s) (respondStatus t) := by
  obtain ⟨m, rfl, hm⟩ := sameUpToStale_iff.1 h
  exact sameUpToStale_setBuf hm

theorem respondDigest_alike {s t : State} (h : SameUpToStale s t) :
    SameUpToStale (respondDigest s) (respondDigest t) := by
  obtain ⟨m, rfl, hm⟩ := sameUpToStale_iff.1 h
  exact sameUpToStale_setBuf hm

theorem latch_alike (f : EngineFault) {s t : State} (h : SameUpToStale s t) :
    SameUpToStale (latch f s) (latch f t) := by
  obtain ⟨m, rfl, hm⟩ := sameUpToStale_iff.1 h
  by_cases he : s.err = 0#3
  · simp only [latch, he, if_true]
    exact sameUpToStale_setBuf hm
  · simp only [latch, he, if_false]
    exact sameUpToStale_setBuf hm

theorem raise_alike (f : EngineFault) {s t : State} (h : SameUpToStale s t) :
    SameUpToStale (raise f s) (raise f t) := respondStatus_alike (latch_alike f h)

theorem setCmds_alike (rest : List HostEvent) {s t : State} (h : SameUpToStale s t) :
    SameUpToStale { s with cmds := rest } { t with cmds := rest } := by
  obtain ⟨m, rfl, hm⟩ := sameUpToStale_iff.1 h
  exact sameUpToStale_setBuf hm

theorem faulted_alike {s t : State} (h : SameUpToStale s t) : faulted t = faulted s := by
  obtain ⟨m, rfl, -⟩ := sameUpToStale_iff.1 h
  rfl

theorem unlessFaulted_alike {s t : State} {run : State → Host.Outcome State Fault Refusal} (h : SameUpToStale s t)
    (hrun : AnswersAlike (run s) (run t)) : AnswersAlike (unlessFaulted s run) (unlessFaulted t run) := by
  unfold unlessFaulted
  rw [faulted_alike h]
  split
  · exact answersAlike_next (respondStatus_alike h)
  · exact hrun

/-! ### The payload and digest steps -/

/-- A session just opened has no pending cell: the whole buffer is stale. -/
theorem openSession_alike (c : Cfg) (v : V128) {s t : State} (h : SameUpToStale s t) :
    SameUpToStale (openSession c v s) (openSession c v t) := by
  obtain ⟨m, rfl, -⟩ := sameUpToStale_iff.1 h
  refine sameUpToStale_setBuf fun i hi => ?_
  rw [remainder_of_count_zero (openSession_count c v s)] at hi
  exact absurd hi (Nat.not_lt_zero i)

/-- A payload that fills the buffer writes every stale cell, so the completed buffer reads the same. -/
theorem bufRead_toppedUp_setBuf {data : List Byte} {s : State} {m : Memory}
    (hm : ∀ i < remainder s, s.buf.read i = m.read i) (hge : 64 ≤ remainder s + data.length) :
    bufRead (toppedUp data { s with buf := m }) 0 64 = bufRead (toppedUp data s) 0 64 := by
  have hr := remainder_lt s
  have hk : topUp (remainder s) data.length = 64 - remainder s := by unfold topUp; omega
  rw [bufRead_eq (Nat.le_refl 64), bufRead_eq (Nat.le_refl 64)]
  refine readCells_congr fun j hj => ?_
  change (writeCells m (remainder s) (data.take (topUp (remainder s) data.length))).read (0 + j) = _
  rw [toppedUp, read_writeCells, read_writeCells, hk, List.length_take]
  by_cases hjr : 0 + j < remainder s
  · rw [if_neg (by omega), if_neg (by omega), hm _ hjr]
  · rw [if_pos (by omega), if_pos (by omega)]

/-- The payload steps answer the same over another buffer with the same pending cells. -/
theorem absorbPayload_setBuf {data : List Byte} {s u : State} {m : Memory}
    (hm : ∀ i < remainder s, s.buf.read i = m.read i) (h : absorbPayload data s = .ok u) :
    ∃ m', absorbPayload data { s with buf := m } = .ok { u with buf := m' } := by
  rcases absorbPayload_cases h with ⟨rfl, rfl⟩ | ⟨hne, hr, hlt, rfl⟩ | ⟨_, hr, hge, blk, hb, h⟩ | ⟨hne, h0, h⟩
  · exact ⟨m, absorbPayload_nil _⟩
  · exact ⟨_, absorbPayload_short (s := { s with buf := m }) hne hr hlt⟩
  · have hb' := (bufRead_toppedUp_setBuf hm hge).trans hb
    have hp : 64 - remainder s ≤ data.length := by omega
    rw [absorbRest_eq _ hp] at h
    cases h
    exact ⟨_, (absorbPayload_fill (s := { s with buf := m }) hr hge hb').trans (absorbRest_eq _ hp)⟩
  · rw [absorbRest_eq _ (Nat.zero_le _)] at h
    cases h
    exact ⟨_, (absorbPayload_aligned (s := { s with buf := m }) hne h0).trans (absorbRest_eq _ (Nat.zero_le _))⟩

/-- And the pending cells after them are the same again. -/
theorem absorbPayload_alike {data : List Byte} {s t u : State} (h : SameUpToStale s t)
    (hu : absorbPayload data s = .ok u) : ∃ u', absorbPayload data t = .ok u' ∧ SameUpToStale u u' := by
  obtain ⟨m, rfl, hm⟩ := sameUpToStale_iff.1 h
  obtain ⟨m', hu'⟩ := absorbPayload_setBuf hm hu
  refine ⟨_, hu', sameUpToStale_setBuf fun i hi => ?_⟩
  have hafter : m'.read i = _ := absorbPayload_read hu' hi
  rw [absorbPayload_read hu hi, hafter, remainder_setBuf s m]
  by_cases hir : i < remainder s
  · rw [hm i hir]
  · simp only [hir, if_false]

/-- The digest steps read pending cells only (43 R143). -/
theorem closeSession_alike {c : Cfg} {s t u : State} (h : SameUpToStale s t) (hu : closeSession c s = .ok u) :
    ∃ u', closeSession c t = .ok u' ∧ SameUpToStale u u' := by
  obtain ⟨m, rfl, hm⟩ := sameUpToStale_iff.1 h
  have hr := remainder_lt s
  have hread : bufRead m 0 (remainder s) = bufRead s.buf 0 (remainder s) := by
    rw [bufRead_eq (by omega), bufRead_eq (by omega)]
    refine readCells_congr fun j hj => ?_
    rw [Nat.zero_add, hm j hj]
  rcases closeSession_cases hu with ⟨hshort, d, hd, rfl⟩ | ⟨hlong, d, hd, rfl⟩
  · have hall : remainder s = s.count.toNat := Nat.mod_eq_of_lt hshort
    rw [hall] at hread
    exact ⟨_, closeSession_short (s := { s with buf := m }) hshort (hread.trans hd), sameUpToStale_setBuf hm⟩
  · exact ⟨_, closeSession_long (s := { s with buf := m }) hlong (hread.trans hd), sameUpToStale_setBuf hm⟩

/-- A result that is answered alike: what `finish` needs of two runs. -/
theorem finish_alike {r r' : Except Fault State} {answer : State → State}
    (hanswer : ∀ u u', SameUpToStale u u' → SameUpToStale (answer u) (answer u'))
    (h : ∀ u, r = .ok u → ∃ u', r' = .ok u' ∧ SameUpToStale u u') :
    AnswersAlike (finish r answer) (finish r' answer) := by
  intro w hw
  obtain ⟨u, hu, rfl⟩ := finish_eq_next.1 hw
  obtain ⟨u', hu', halike⟩ := h u hu
  exact ⟨answer u', finish_eq_next.2 ⟨u', hu', rfl⟩, hanswer u u' halike⟩

/-! ### Commands, steps, runs -/

theorem initCommand_alike (c : Cfg) (v : V128) {s t : State} (h : SameUpToStale s t) :
    AnswersAlike (initCommand c v s) (initCommand c v t) :=
  unlessFaulted_alike h (answersAlike_next (respondStatus_alike (openSession_alike c v h)))

theorem updateCommand_alike (data : List Byte) {s t : State} (h : SameUpToStale s t) :
    AnswersAlike (updateCommand data s) (updateCommand data t) := by
  refine unlessFaulted_alike h ?_
  have hphase : t.phase = s.phase := by rw [h.left]
  have hover : overflows t data.length = overflows s data.length := by rw [h.left]; rfl
  simp only [hphase, hover]
  cases phaseFault s.phase with
  | some f => exact answersAlike_next (raise_alike f h)
  | none =>
    cases overflows s data.length with
    | true => exact answersAlike_next (raise_alike _ h)
    | false => exact finish_alike (fun _ _ => respondStatus_alike) fun _ => absorbPayload_alike h

theorem finalizeCommand_alike (c : Cfg) {s t : State} (h : SameUpToStale s t) :
    AnswersAlike (finalizeCommand c s) (finalizeCommand c t) := by
  refine unlessFaulted_alike h ?_
  have hphase : t.phase = s.phase := by rw [h.left]
  simp only [hphase]
  cases phaseFault s.phase with
  | some f => exact answersAlike_next (raise_alike f h)
  | none => exact finish_alike (fun _ _ => respondDigest_alike) fun _ => closeSession_alike h

/-- The three inner steps of HASH (42 R131), one after the other. -/
theorem hashSteps_alike {c : Cfg} {v : V128} {data : List Byte} {s t u : State} (h : SameUpToStale s t)
    (hu : hashSteps c v data s = .ok u) : ∃ u', hashSteps c v data t = .ok u' ∧ SameUpToStale u u' := by
  unfold hashSteps at hu ⊢
  cases hw : absorbPayload data (openSession c v s) with
  | error f => simp [hw] at hu
  | ok w =>
    simp only [hw] at hu
    obtain ⟨w', hw', halike⟩ := absorbPayload_alike (openSession_alike c v h) hw
    simp only [hw']
    exact closeSession_alike halike hu

theorem hashCommand_alike (c : Cfg) (v : V128) (data : List Byte) {s t : State} (h : SameUpToStale s t) :
    AnswersAlike (hashCommand c v data s) (hashCommand c v data t) := by
  refine unlessFaulted_alike h ?_
  by_cases hlen : data.length > maxInput
  · simp only [hlen, if_true]
    exact answersAlike_next (raise_alike _ h)
  · simp only [hlen, if_false]
    exact finish_alike (fun _ _ => respondDigest_alike) fun _ => hashSteps_alike h

theorem exec_alike (i : Instr) {s t : State} (h : SameUpToStale s t) : AnswersAlike (exec i s) (exec i t) := by
  cases i with
  | init seed => exact initCommand_alike _ _ h
  | update data => exact updateCommand_alike data h
  | finalize => exact finalizeCommand_alike _ h
  | hash seed data => exact hashCommand_alike _ _ data h

/-- One step, by the event taken: the reset event forgets every cell, a packet is refused, raises or is executed. -/
theorem step_alike {s t : State} (h : SameUpToStale s t) : AnswersAlike (step s) (step t) := by
  have hcmds : t.cmds = s.cmds := by rw [h.left]
  cases hs : s.cmds with
  | nil =>
    rw [hs] at hcmds
    simp only [step, takeEvent_nil hs, takeEvent_nil hcmds]
    exact answersAlike_next h
  | cons e rest =>
    rw [hs] at hcmds
    have htaken := setCmds_alike rest h
    simp only [step, takeEvent_cons hs, takeEvent_cons hcmds]
    cases e with
    | reset =>
      have hsame : resetEvent { t with cmds := rest } = resetEvent { s with cmds := rest } := by rw [h.left]; rfl
      simp only [hsame]
      exact answersAlike_next ⟨rfl, fun _ _ => rfl⟩
    | packet p =>
      simp only [faulted_alike htaken]
      cases faulted { s with cmds := rest } with
      | true => exact answersAlike_next (respondStatus_alike htaken)
      | false =>
        cases decode p with
        | error e => exact answersAlike_next (raise_alike _ htaken)
        | ok i => exact exec_alike i htaken

/-- A run that answers has a first step that answers, and goes on from there (70 R195). -/
theorem run_succ_eq_next {M : Host.Core} {n : Nat} {s t : M.State} (h : M.run (n + 1) s = .next t) :
    ∃ u, M.step s = .next u ∧ M.run n u = .next t := by
  cases hstep : M.step s with
  | next u => exact ⟨u, rfl, (run_succ_next M hstep).symm.trans h⟩
  | fault f => simp [Host.Core.run, hstep] at h
  | refused f => simp [Host.Core.run, hstep] at h

/-- Settles O51, by induction on the length of the run. -/
theorem staleCellsCannotBeObserved : Obligations.StaleCellsCannotBeObserved := by
  unfold Obligations.StaleCellsCannotBeObserved
  intro n
  induction n with
  | zero =>
    rintro s t s' h ⟨⟩
    exact ⟨t, rfl, h⟩
  | succ n ih =>
    intro s t s' h hrun
    obtain ⟨u, hstep, hrest⟩ := run_succ_eq_next hrun
    obtain ⟨u', hstep', hu⟩ := step_alike h u hstep
    obtain ⟨t', hrun', ht⟩ := ih u u' s' hu hrest
    exact ⟨t', (run_succ_next Sys2Proof.core hstep').trans hrun', ht⟩

end Sys2Proof.Proofs
end

section
/-! PROOF. A state that meets the invariant always answers (70_reset_and_hazards R194): the buffer accesses of the
commands stay inside the buffer and read pending cells only, so none of them stops (20_memory R46). -/

namespace Sys2Proof.Proofs

open Sys2Proof Sys2Proof.Machine

/-! ### The shared wrappers -/

theorem finish_answers {r : Except Fault State} (answer : State → State) (h : ∃ u, r = .ok u) :
    ∃ t, finish r answer = .next t := by
  obtain ⟨u, hu⟩ := h
  exact ⟨answer u, finish_eq_next.2 ⟨u, hu, rfl⟩⟩

/-- The refusal of a faulted engine is an answer (60 R167). -/
theorem unlessFaulted_answers {s : State} {run : State → Host.Outcome State Fault Refusal}
    (h : ∃ t, run s = .next t) : ∃ t, unlessFaulted s run = .next t := by
  unfold unlessFaulted
  split
  · exact ⟨refuse s, rfl⟩
  · exact h

/-! ### The commands -/

theorem initCommand_answers (c : Cfg) (v : V128) (s : State) : ∃ t, initCommand c v s = .next t := by
  unfold initCommand
  exact unlessFaulted_answers ⟨_, rfl⟩

theorem updateCommand_answers (data : List Byte) {s : State} (hs : PendingReadable s) :
    ∃ t, updateCommand data s = .next t := by
  refine unlessFaulted_answers ?_
  cases phaseFault s.phase with
  | some f => exact ⟨_, rfl⟩
  | none =>
    cases overflows s data.length with
    | true => exact ⟨_, rfl⟩
    | false => exact finish_answers _ (absorbPayload_answers hs)

theorem finalizeCommand_answers (c : Cfg) {s : State} (hs : PendingReadable s) :
    ∃ t, finalizeCommand c s = .next t := by
  refine unlessFaulted_answers ?_
  cases phaseFault s.phase with
  | some f => exact ⟨_, rfl⟩
  | none => exact finish_answers _ (closeSession_answers hs)

/-- A session just opened has no pending cell to read (43 R141). -/
theorem openSession_pendingReadable (c : Cfg) (v : V128) (s : State) : PendingReadable (openSession c v s) := by
  intro i hi
  rw [remainder_of_count_zero (openSession_count c v s)] at hi
  exact absurd hi (Nat.not_lt_zero i)

/-- HASH's inner steps read only what they have written themselves, whatever the buffer held before (42 R131). -/
theorem hashSteps_answers (c : Cfg) (v : V128) (data : List Byte) (s : State) :
    ∃ u, hashSteps c v data s = .ok u := by
  have hopen := openSession_pendingReadable c v s
  obtain ⟨w, hw⟩ := absorbPayload_answers (data := data) hopen
  obtain ⟨u, hu⟩ := closeSession_answers (c := c) (absorbPayload_pendingReadable hw hopen)
  exact ⟨u, by simp only [hashSteps, hw, hu]⟩

theorem hashCommand_answers (c : Cfg) (v : V128) (data : List Byte) (s : State) :
    ∃ t, hashCommand c v data s = .next t := by
  refine unlessFaulted_answers ?_
  by_cases hlen : data.length > maxInput
  · simp only [hlen, if_true]
    exact ⟨_, rfl⟩
  · simp only [hlen, if_false]
    exact finish_answers _ (hashSteps_answers c v data s)

/-- Only UPDATE and FINALIZE need the pending cells of before: INIT reads no cell, HASH none that it has not written
(10_state R33). -/
theorem exec_answers (i : Instr) {s : State} (hs : PendingReadable s) : ∃ t, exec i s = .next t := by
  cases i with
  | init seed => exact initCommand_answers _ _ s
  | update data => exact updateCommand_answers data hs
  | finalize => exact finalizeCommand_answers _ hs
  | hash seed data => exact hashCommand_answers _ _ data s

/-! ### One step -/

/-- Waiting, the reset event, the refusal and `IllegalCommand` answer from every state; a command that decodes needs
the pending cells. -/
theorem step_answers {s : State} (hs : PendingReadable s) : ∃ t, step s = .next t := by
  cases hc : s.cmds with
  | nil =>
    simp only [step, takeEvent_nil hc]
    exact ⟨_, rfl⟩
  | cons e rest =>
    simp only [step, takeEvent_cons hc]
    cases e with
    | reset => exact ⟨_, rfl⟩
    | packet p =>
      simp only
      cases faulted { s with cmds := rest } with
      | true => exact ⟨_, rfl⟩
      | false =>
        cases decode p with
        | error e => exact ⟨_, rfl⟩
        | ok i => exact exec_answers i (s := { s with cmds := rest }) hs

/-- Settles O29: of the invariant, the readable pending cells are what a step needs. -/
theorem stepAlwaysAnswers : Obligations.StepAlwaysAnswers := by
  unfold Obligations.StepAlwaysAnswers
  rintro s ⟨-, hpend, -⟩
  exact step_answers hpend

end Sys2Proof.Proofs
end

section
/-! PROOF. A vector value as a number (20_memory R41), and the statements about bytes and buffer accesses (20_memory
R41, R46). -/

namespace Sys2Proof.Proofs

open Sys2Proof Sys2Proof.Machine

/-! ### The value as a number -/

theorem byteOf_toNat (v : V128) (j : Nat) : (byteOf v j).toNat = v.toNat / 2 ^ (8 * j) % 2 ^ 8 := by
  rw [byteOf, BitVec.extractLsb'_toNat, Nat.shiftRight_eq_div_pow]

/-- The first `n` bytes spell the value modulo `2^(8n)`, byte 0 least significant. -/
theorem sum_byteOf_eq_mod (v : V128) (n : Nat) :
    ∑ j ∈ Finset.range n, (byteOf v j).toNat * 2 ^ (8 * j) = v.toNat % 2 ^ (8 * n) := by
  induction n with
  | zero => simp [Nat.mod_one]
  | succ n ih =>
    rw [Finset.sum_range_succ, ih, byteOf_toNat, Nat.mul_succ, Nat.pow_add, Nat.mod_mul, Nat.mul_comm (2 ^ (8 * n))]

/-- Settles O8: `load16` and `bytesOf` name byte `j` alike, and sixteen bytes spell the whole value. -/
theorem sixteenBytesKeepTheirOrder : Obligations.SixteenBytesKeepTheirOrder := by
  unfold Obligations.SixteenBytesKeepTheirOrder
  refine ⟨fun s hs => ⟨bytesOf_load16 hs, fun j hj => byteOf_load16 s hj⟩, fun v => ?_⟩
  rw [sum_byteOf_eq_mod, Nat.mod_eq_of_lt v.isLt]

/-! ### `BufRead` and `BufWrite` -/

/-- The bytes just written are read back (20_memory R46). -/
theorem bufRead_writeCells {m : Memory} {i : Nat} {s : List Byte} (h : i + s.length ≤ 64) :
    bufRead (writeCells m i s) i s.length = .ok s := by
  refine bufRead_eq_ok rfl h fun j hj => ?_
  rw [read_writeCells, if_pos (by omega), Nat.add_sub_cancel_left]

/-- Settles O9: inside its bounds `BufWrite` answers the cells written one by one. -/
theorem bufWriteThenReadReturnsBytes : Obligations.BufWriteThenReadReturnsBytes := by
  unfold Obligations.BufWriteThenReadReturnsBytes
  intro m i s h
  refine ⟨writeCells m i s, bufWrite_eq h, bufRead_writeCells h, fun a ha => ?_, writeCells_wf h⟩
  rw [read_writeCells, if_neg ha]

theorem bufRead_outOfRange (m : Memory) {i n : Nat} (h : 64 < i + n) :
    bufRead m i n = .error (.bufOutOfRange i n) := by
  rw [bufRead, if_neg (Nat.not_le.2 h)]

theorem bufWrite_outOfRange (m : Memory) {i : Nat} {s : List Byte} (h : 64 < i + s.length) :
    bufWrite m i s = .error (.bufOutOfRange i s.length) := by
  rw [bufWrite, if_neg (Nat.not_le.2 h)]

/-- A read stops at its first cell when that holds no value (10_state R36). -/
theorem readCells_noValue {m : Memory} {i : Nat} (n : Nat) (h : m.read i = none) :
    readCells m i (n + 1) = .error (.bufNoValue i) := by
  simp only [readCells, h]

/-- Settles O10: the bounds test stops an access past cell 63, the first cell a read of no value. -/
theorem absentCellsStopByName : Obligations.AbsentCellsStopByName := by
  unfold Obligations.AbsentCellsStopByName
  refine ⟨fun m i n h => bufRead_outOfRange m h, fun m i s h => bufWrite_outOfRange m h, fun m i n h hnone => ?_⟩
  rw [bufRead_eq h, readCells_noValue n hnone]

end Sys2Proof.Proofs
end

section
/-! PROOF. The decoder as an equivalence (30_encoding R61 to R67): which command bytes there are, and for each the
operand bytes that are answered and the command they give. Both directions of the round trip follow. -/

namespace Sys2Proof.Proofs

open Sys2Proof Sys2Proof.Machine

/-! ### The command byte -/

/-- The three fields of a command byte are the ones it was made of (30_encoding R61). -/
theorem commandByte_fields (op : Op) (s : Bool) :
    reservedField (commandByte op s) = 0#4 ∧ opOfCode (opField (commandByte op s)) = some op ∧
      seedFlag (commandByte op s) = s := by
  cases op <;> cases s <;> decide

/-- A byte is its three fields, `OP` lowest (30_encoding R61). -/
theorem byte_eq_fields (cb : Byte) : cb = reservedField cb ++ BitVec.ofBool (seedFlag cb) ++ opField cb := by
  apply BitVec.eq_of_getLsbD_eq
  intro i hi
  simp only [reservedField, seedFlag, opField, BitVec.getLsbD_append, BitVec.getLsbD_extractLsb',
    BitVec.getLsbD_ofBool]
  interval_cases i <;> simp

theorem opOfCode_eq_some {code : BitVec 3} {op : Op} (h : opOfCode code = some op) : code = opCode op := by
  revert h
  cases op <;> revert code <;> decide

theorem eq_commandByte {cb : Byte} {op : Op} (hres : reservedField cb = 0#4) (hop : opOfCode (opField cb) = some op) :
    cb = commandByte op (seedFlag cb) := by
  have h := byte_eq_fields cb
  rwa [hres, opOfCode_eq_some hop] at h

/-- The decoder of the operands that follow a command byte of `op` and the seed flag. -/
def decodeOperands : Op → Bool → List Byte → Except DecodeError Instr
  | .init => decodeInit
  | .update => decodeUpdate
  | .finalize => decodeFinalize
  | .hash => decodeHash

/-- Behind a command byte the decoder is the operand decoder of its operation. -/
theorem decode_commandByte (op : Op) (s : Bool) (rest : List Byte) :
    decode (commandByte op s :: rest) = decodeOperands op s rest := by
  obtain ⟨hres, hop, hseed⟩ := commandByte_fields op s
  rw [decode, if_pos hres, hop, hseed]
  cases op <;> rfl

/-- A packet that decodes begins with a command byte (30_encoding R67). -/
theorem decode_ok_commandByte {p : List Byte} {i : Instr} (h : decode p = .ok i) :
    ∃ op s rest, p = commandByte op s :: rest ∧ decodeOperands op s rest = .ok i := by
  cases p with
  | nil => cases h
  | cons cb rest =>
    by_cases hres : reservedField cb = 0#4
    · cases hop : opOfCode (opField cb) with
      | none => rw [decode, if_pos hres, hop] at h; cases h
      | some op =>
        have hcb := eq_commandByte hres hop
        rw [hcb, decode_commandByte] at h
        exact ⟨op, seedFlag cb, rest, by rw [← hcb], h⟩
    · rw [decode, if_neg hres] at h
      cases h

/-! ### The operands -/

theorem exceptMap_eq_ok {α β : Type} {r : Except DecodeError α} {f : α → β} {b : β} :
    r.map f = .ok b ↔ ∃ a, r = .ok a ∧ f a = b := by
  cases r <;> simp [Except.map]

/-- The seed bytes sent are those of the value they load to (30_encoding R66). -/
theorem encodeSeed_load16 {seed : List Byte} (h : seed.length = 16) : encodeSeed (some (load16 seed)) = seed :=
  bytesOf_load16 h

/-- A length field that spells the number of data bytes is the one the encoder writes, and that number fits it
(30_encoding R66). -/
theorem encodePayload_of_le64 {len data : List Byte} (hlen : len.length = 8) (hn : le64 len = data.length) :
    data.length < 2 ^ 64 ∧ encodePayload data = len ++ data := by
  refine ⟨?_, by rw [encodePayload, ← hn, le64Bytes_le64 hlen]⟩
  have hlt := le64_lt len
  rw [hlen, hn] at hlt
  omega

/-- The payload operands answered are the encoded ones whose length fits the field (30_encoding R67). -/
theorem decodePayload_eq_ok {rest data : List Byte} :
    decodePayload rest = .ok data ↔ data.length < 2 ^ 64 ∧ rest = encodePayload data := by
  constructor
  · intro h
    by_cases h8 : 8 ≤ rest.length
    · by_cases hn : rest.length = 8 + le64 (rest.take 8)
      · rw [decodePayload, if_pos h8, if_pos hn] at h
        cases h
        obtain ⟨hlt, henc⟩ := encodePayload_of_le64 (len := rest.take 8) (data := rest.drop 8) (by simp [h8])
          (by rw [List.length_drop]; omega)
        exact ⟨hlt, by rw [henc, List.take_append_drop]⟩
      · rw [decodePayload, if_pos h8, if_neg hn] at h
        cases h
    · rw [decodePayload, if_neg h8] at h
      cases h
  · rintro ⟨hlt, rfl⟩
    simp [decodePayload, encodePayload, le64_le64Bytes hlt]

/-- INIT's operands: nothing, or the sixteen bytes of a seed (30_encoding R62). -/
theorem decodeInit_eq_ok {s : Bool} {rest : List Byte} {i : Instr} :
    decodeInit s rest = .ok i ↔ ∃ seed, s = seed.isSome ∧ rest = encodeSeed seed ∧ i = .init seed := by
  constructor
  · intro h
    cases s with
    | false =>
      cases rest with
      | nil => exact ⟨none, rfl, rfl, (Except.ok.inj h).symm⟩
      | cons b bs => simp [decodeInit] at h
    | true =>
      by_cases h16 : rest.length = 16
      · rw [decodeInit, if_pos rfl, if_pos h16] at h
        exact ⟨some (load16 rest), rfl, (encodeSeed_load16 h16).symm, (Except.ok.inj h).symm⟩
      · simp [decodeInit, h16] at h
  · rintro ⟨_ | v, rfl, rfl, rfl⟩
    · rfl
    · simp [decodeInit, encodeSeed]

/-- UPDATE's operands: a payload, and no seed flag (30_encoding R63). -/
theorem decodeUpdate_eq_ok {s : Bool} {rest : List Byte} {i : Instr} :
    decodeUpdate s rest = .ok i ↔
      s = false ∧ ∃ data, data.length < 2 ^ 64 ∧ rest = encodePayload data ∧ i = .update data := by
  cases s with
  | true => simp [decodeUpdate]
  | false =>
    simp only [decodeUpdate, Bool.false_eq_true, if_false, exceptMap_eq_ok, decodePayload_eq_ok, true_and, and_assoc,
      eq_comm (b := i)]

/-- FINALIZE has no operand and no seed flag (30_encoding R64). -/
theorem decodeFinalize_eq_ok {s : Bool} {rest : List Byte} {i : Instr} :
    decodeFinalize s rest = .ok i ↔ s = false ∧ rest = [] ∧ i = .finalize := by
  cases s with
  | true => simp [decodeFinalize]
  | false => cases rest <;> simp [decodeFinalize, eq_comm (b := i)]

/-- HASH's operands: a seed when the flag is set, then a payload (30_encoding R65). -/
theorem decodeHash_eq_ok {s : Bool} {rest : List Byte} {i : Instr} :
    decodeHash s rest = .ok i ↔ ∃ seed data, s = seed.isSome ∧ data.length < 2 ^ 64 ∧
      rest = encodeSeed seed ++ encodePayload data ∧ i = .hash seed data := by
  constructor
  · intro h
    cases s with
    | false =>
      obtain ⟨data, hdata, hi⟩ := exceptMap_eq_ok.1 h
      obtain ⟨hlt, hrest⟩ := decodePayload_eq_ok.1 hdata
      exact ⟨none, data, rfl, hlt, hrest, hi.symm⟩
    | true =>
      by_cases h16 : 16 ≤ rest.length
      · rw [decodeHash, if_pos rfl, if_pos h16] at h
        obtain ⟨data, hdata, hi⟩ := exceptMap_eq_ok.1 h
        obtain ⟨hlt, hrest⟩ := decodePayload_eq_ok.1 hdata
        refine ⟨some (load16 (rest.take 16)), data, rfl, hlt, ?_, hi.symm⟩
        rw [encodeSeed_load16 (by simp [h16]), ← hrest, List.take_append_drop]
      · simp [decodeHash, h16] at h
  · rintro ⟨seed, data, rfl, hlt, rfl, rfl⟩
    have hdata : decodePayload (encodePayload data) = .ok data := decodePayload_eq_ok.2 ⟨hlt, rfl⟩
    cases seed with
    | none =>
      simp only [decodeHash, Option.isSome_none, Bool.false_eq_true, if_false, encodeSeed, List.nil_append, hdata,
        Except.map]
    | some v =>
      have hv : (bytesOf v).length = 16 := bytesOf_length v
      rw [decodeHash, Option.isSome_some, if_pos rfl, encodeSeed, if_pos (by rw [List.length_append]; omega),
        List.take_left' hv, List.drop_left' hv, load16_bytesOf, hdata, Except.map]

/-! ### The round trip -/

/-- The decoder inverts the encoder (30_encoding R67). -/
theorem decode_encode {i : Instr} (h : i.wellFormed = true) : decode (encode i) = .ok i := by
  cases i with
  | init seed => exact (decode_commandByte _ _ _).trans (decodeInit_eq_ok.2 ⟨seed, rfl, rfl, rfl⟩)
  | update data =>
    exact (decode_commandByte _ _ _).trans (decodeUpdate_eq_ok.2 ⟨rfl, data, of_decide_eq_true h, rfl, rfl⟩)
  | finalize => exact (decode_commandByte _ _ _).trans (decodeFinalize_eq_ok.2 ⟨rfl, rfl, rfl⟩)
  | hash seed data =>
    exact (decode_commandByte _ _ _).trans (decodeHash_eq_ok.2 ⟨seed, data, rfl, of_decide_eq_true h, rfl, rfl⟩)

/-- Only the encoding of a command decodes to it (30_encoding R66, R67). -/
theorem encode_of_decode {p : List Byte} {i : Instr} (h : decode p = .ok i) : i.wellFormed = true ∧ encode i = p := by
  obtain ⟨op, s, rest, rfl, hops⟩ := decode_ok_commandByte h
  cases op with
  | init =>
    obtain ⟨seed, rfl, rfl, rfl⟩ := decodeInit_eq_ok.1 hops
    exact ⟨rfl, rfl⟩
  | update =>
    obtain ⟨rfl, data, hlt, rfl, rfl⟩ := decodeUpdate_eq_ok.1 hops
    exact ⟨decide_eq_true hlt, rfl⟩
  | finalize =>
    obtain ⟨rfl, rfl, rfl⟩ := decodeFinalize_eq_ok.1 hops
    exact ⟨rfl, rfl⟩
  | hash =>
    obtain ⟨seed, data, rfl, hlt, rfl, rfl⟩ := decodeHash_eq_ok.1 hops
    exact ⟨decide_eq_true hlt, rfl⟩

/-- Settles O1: the command byte gives its operation and flag back, and the operand decoder of each operation its
operands. -/
theorem decodeOfEncodeIsTheInstr : Obligations.DecodeOfEncodeIsTheInstr := by
  unfold Obligations.DecodeOfEncodeIsTheInstr
  exact fun _ h => decode_encode h

/-- Settles O2: a packet that decodes begins with a command byte, and each operand decoder answers encoded operands
alone. -/
theorem decodedPacketIsTheEncoding : Obligations.DecodedPacketIsTheEncoding := by
  unfold Obligations.DecodedPacketIsTheEncoding
  exact fun _ _ h => encode_of_decode h

end Sys2Proof.Proofs
end

section
/-! PROOF. The six legal forms written out (30_encoding R67), the classes of illegal packets and the fault entry they
cause (R68, 60_exceptions R161), and the written-out packets (R62 to R65). -/

namespace Sys2Proof.Proofs

open Sys2Proof Sys2Proof.Machine

/-! ### The six legal forms -/

/-- A packet decodes to `i` exactly when it is the encoding of `i` and `i` is well-formed. -/
theorem decode_eq_ok {p : List Byte} {i : Instr} : decode p = .ok i ↔ i.wellFormed = true ∧ encode i = p :=
  ⟨encode_of_decode, by rintro ⟨hwf, rfl⟩; exact decode_encode hwf⟩

/-- The payload operands an encoding ends with, as a length field and the data (30_encoding R66). -/
theorem encodePayload_split {data : List Byte} (h : data.length < 2 ^ 64) :
    ∃ len : List Byte, len.length = 8 ∧ le64 len = data.length ∧ encodePayload data = len ++ data :=
  ⟨le64Bytes data.length, le64Bytes_length _, le64_le64Bytes h, rfl⟩

/-- The packet of INIT with a seed (30_encoding R62). -/
theorem encode_init_some (v : V128) : encode (.init (some v)) = 0x09#8 :: bytesOf v := by
  have hcb : commandByte .init true = 0x09#8 := by decide
  rw [encode, Option.isSome_some, hcb, encodeSeed]

/-- The packet of HASH with a seed (30_encoding R65). -/
theorem encode_hash_some (v : V128) (data : List Byte) :
    encode (.hash (some v) data) = 0x0c#8 :: (bytesOf v ++ encodePayload data) := by
  have hcb : commandByte .hash true = 0x0c#8 := by decide
  rw [encode, Option.isSome_some, hcb, encodeSeed]

/-- A packet that decodes to no command raises `IllegalCommand` on an engine with no fault latched
(60 R161, R166). -/
theorem step_of_illegal {s : State} {p : List Byte} {rest : List HostEvent} {e : DecodeError} (herr : s.err = 0#3)
    (hcmds : s.cmds = .packet p :: rest) (h : decode p = .error e) :
    step s = .next { s with
      cmds := rest
      err := 1#3
      resps := s.resps ++ [[0#3 ++ phaseCode s.phase ++ 1#3]] } := by
  have htake : takeEvent s = some (.packet p, { s with cmds := rest }) := takeEvent_cons hcmds
  have hlive : faulted { s with cmds := rest } = false := faulted_eq_false.2 herr
  have hraise := raise_of_ok .illegalCommand (s := { s with cmds := rest }) herr
  simp only [step, htake, hlive, h, hraise]
  rfl

/-- Settles O3: the well-formed encodings are the six forms, command by command, and what does not decode is fault
entry. -/
theorem decodeAcceptsExactlySixForms : Obligations.DecodeAcceptsExactlySixForms := by
  unfold Obligations.DecodeAcceptsExactlySixForms
  refine ⟨fun p i => ⟨fun h => ?_, fun h => decode_eq_ok.2 ?_⟩, fun s p rest herr hcmds hp => ?_⟩
  · obtain ⟨hwf, rfl⟩ := decode_eq_ok.1 h
    cases i with
    | init seed =>
      cases seed with
      | none => exact .inl ⟨rfl, rfl⟩
      | some v => exact .inr (.inl ⟨bytesOf v, bytesOf_length v, encode_init_some v, by rw [load16_bytesOf]⟩)
    | update data =>
      obtain ⟨len, hlen, hn, henc⟩ := encodePayload_split (of_decide_eq_true hwf)
      exact .inr (.inr (.inl ⟨len, data, hlen, hn, congrArg _ henc, rfl⟩))
    | finalize => exact .inr (.inr (.inr (.inl ⟨rfl, rfl⟩)))
    | hash seed data =>
      obtain ⟨len, hlen, hn, henc⟩ := encodePayload_split (of_decide_eq_true hwf)
      cases seed with
      | none => exact .inr (.inr (.inr (.inr (.inl ⟨len, data, hlen, hn, congrArg _ henc, rfl⟩))))
      | some v =>
        refine .inr (.inr (.inr (.inr (.inr ⟨bytesOf v, len, data, bytesOf_length v, hlen, hn, ?_, ?_⟩))))
        · rw [encode_hash_some, henc, List.append_assoc]
        · rw [load16_bytesOf]
  · rcases h with ⟨rfl, rfl⟩ | ⟨seed, hseed, rfl, rfl⟩ | ⟨len, data, hlen, hn, rfl, rfl⟩ | ⟨rfl, rfl⟩ |
      ⟨len, data, hlen, hn, rfl, rfl⟩ | ⟨seed, len, data, hseed, hlen, hn, rfl, rfl⟩
    · exact ⟨rfl, rfl⟩
    · exact ⟨rfl, by rw [encode_init_some, bytesOf_load16 hseed]⟩
    · obtain ⟨hlt, henc⟩ := encodePayload_of_le64 hlen hn
      exact ⟨decide_eq_true hlt, congrArg _ henc⟩
    · exact ⟨rfl, rfl⟩
    · obtain ⟨hlt, henc⟩ := encodePayload_of_le64 hlen hn
      exact ⟨decide_eq_true hlt, congrArg _ henc⟩
    · obtain ⟨hlt, henc⟩ := encodePayload_of_le64 hlen hn
      exact ⟨decide_eq_true hlt, by rw [encode_hash_some, bytesOf_load16 hseed, henc, List.append_assoc]⟩
  · cases hd : decode p with
    | error e => exact step_of_illegal herr hcmds hd
    | ok i => exact absurd hd (hp i)

/-! ### The classes of illegal packets (30_encoding R68) -/

theorem decode_reservedBits {cb : Byte} (r : List Byte) (h : reservedField cb ≠ 0#4) :
    decode (cb :: r) = .error .reservedBits := by
  rw [decode, if_neg h]

theorem decode_noSuchOp {cb : Byte} (r : List Byte)
    (h : cb ∈ [0x00#8, 0x05#8, 0x06#8, 0x07#8, 0x08#8, 0x0d#8, 0x0e#8, 0x0f#8]) :
    decode (cb :: r) = .error .noSuchOp := by
  obtain ⟨hres, hop⟩ : reservedField cb = 0#4 ∧ opOfCode (opField cb) = none := by
    simp only [List.mem_cons, List.not_mem_nil, or_false] at h
    rcases h with rfl | rfl | rfl | rfl | rfl | rfl | rfl | rfl <;> exact ⟨rfl, rfl⟩
  rw [decode, if_pos hres, hop]

/-- UPDATE and FINALIZE take no seed flag. -/
theorem decode_seedNotAllowed {op : Op} (r : List Byte) (h : op = .update ∨ op = .finalize) :
    decode (commandByte op true :: r) = .error .seedNotAllowed := by
  rw [decode_commandByte]
  rcases h with rfl | rfl <;> rfl

/-- INIT without a seed and FINALIZE are the command byte alone. -/
theorem decode_operandsAfterBareCommand {op : Op} {r : List Byte} (h : op = .init ∨ op = .finalize)
    (hr : r.length ≠ 0) : decode (commandByte op false :: r) = .error .badLength := by
  rw [decode_commandByte]
  rcases h with rfl | rfl <;> simp only [decodeOperands, decodeInit, decodeFinalize, Bool.false_eq_true, if_false, hr]

theorem decode_seedLength {r : List Byte} (hr : r.length ≠ 16) :
    decode (commandByte .init true :: r) = .error .badLength := by
  rw [decode_commandByte, decodeOperands, decodeInit, if_pos rfl, if_neg hr]

/-- A payload whose length field is cut short or does not spell the number of bytes behind it. -/
theorem decodePayload_badLength {r : List Byte} (h : r.length < 8 ∨ r.length ≠ 8 + le64 (r.take 8)) :
    decodePayload r = .error .badLength := by
  rw [decodePayload]
  split
  · rw [if_neg (h.resolve_left (by omega))]
  · rfl

theorem decode_payloadLength {op : Op} {r : List Byte} (hop : op = .update ∨ op = .hash)
    (h : r.length < 8 ∨ r.length ≠ 8 + le64 (r.take 8)) :
    decode (commandByte op false :: r) = .error .badLength := by
  rw [decode_commandByte]
  rcases hop with rfl | rfl <;>
    simp only [decodeOperands, decodeUpdate, decodeHash, Bool.false_eq_true, if_false, decodePayload_badLength h,
      Except.map]

theorem decode_seededHashLength {r : List Byte}
    (h : r.length < 24 ∨ r.length ≠ 24 + le64 ((r.drop 16).take 8)) :
    decode (commandByte .hash true :: r) = .error .badLength := by
  rw [decode_commandByte, decodeOperands, decodeHash, if_pos rfl]
  split
  · have hpay : decodePayload (r.drop 16) = .error .badLength :=
      decodePayload_badLength (by rw [List.length_drop]; omega)
    rw [hpay, Except.map]
  · rfl

/-- A packet begins with one of the six legal command bytes, whatever its command (30_encoding R68). -/
theorem encode_commandByte (i : Instr) : Laws.EncodeCommandByte.Statement i := by
  cases i with
  | init seed => exact Laws.EncodeCommandByte.init seed
  | update data => exact Laws.EncodeCommandByte.update data
  | finalize => exact Laws.EncodeCommandByte.finalize
  | hash seed data => exact Laws.EncodeCommandByte.hash seed data

/-- The first byte of a packet that decodes. -/
theorem decode_ok_legalByte {cb : Byte} {r : List Byte} {i : Instr} (h : decode (cb :: r) = .ok i) :
    cb ∈ [0x01#8, 0x09#8, 0x02#8, 0x03#8, 0x04#8, 0x0c#8] := by
  obtain ⟨-, henc⟩ := encode_of_decode h
  obtain ⟨cb', r', henc', hmem⟩ := encode_commandByte i
  rw [henc] at henc'
  cases henc'
  exact hmem

/-- Each of the six command bytes begins the packet of a command with nothing but zeros behind it. -/
theorem legalByte_begins {cb : Byte} (h : cb ∈ [0x01#8, 0x09#8, 0x02#8, 0x03#8, 0x04#8, 0x0c#8]) :
    ∃ r i, decode (cb :: r) = .ok i := by
  simp only [List.mem_cons, List.not_mem_nil, or_false] at h
  rcases h with rfl | rfl | rfl | rfl | rfl | rfl
  · exact ⟨_, _, decode_encode (i := .init none) rfl⟩
  · exact ⟨_, _, decode_encode (i := .init (some zero128)) rfl⟩
  · exact ⟨_, _, decode_encode (i := .update []) rfl⟩
  · exact ⟨_, _, decode_encode (i := .finalize) rfl⟩
  · exact ⟨_, _, decode_encode (i := .hash none []) rfl⟩
  · exact ⟨_, _, decode_encode (i := .hash (some zero128) []) rfl⟩

/-- Settles O4: each class decodes to an error, and so is fault entry; the command bytes are those of the encoder. -/
theorem everyIllegalEncodingRaises : Obligations.EveryIllegalEncodingRaises := by
  unfold Obligations.EveryIllegalEncodingRaises
  refine ⟨fun s p rest herr hcmds hp => ?_, fun cb => ⟨fun ⟨_, _, h⟩ => decode_ok_legalByte h, legalByte_begins⟩⟩
  suffices h : ∃ e, decode p = .error e by
    obtain ⟨e, he⟩ := h
    exact step_of_illegal herr hcmds he
  simp only [List.mem_pair] at hp
  rcases hp with rfl | ⟨cb, r, rfl, hres⟩ | ⟨cb, r, rfl, hcb⟩ | ⟨_, r, rfl, rfl | rfl⟩ | ⟨_, r, rfl, rfl | rfl, hr⟩ |
    ⟨_, r, rfl, rfl, hr⟩ | ⟨_, r, rfl, rfl | rfl, hr⟩ | ⟨_, r, rfl, rfl, hr⟩
  · exact ⟨_, rfl⟩
  · exact ⟨_, decode_reservedBits r hres⟩
  · exact ⟨_, decode_noSuchOp r hcb⟩
  · exact ⟨_, decode_seedNotAllowed (op := .update) r (.inl rfl)⟩
  · exact ⟨_, decode_seedNotAllowed (op := .finalize) r (.inr rfl)⟩
  · exact ⟨_, decode_operandsAfterBareCommand (op := .init) (.inl rfl) hr⟩
  · exact ⟨_, decode_operandsAfterBareCommand (op := .finalize) (.inr rfl) hr⟩
  · exact ⟨_, decode_seedLength hr⟩
  · exact ⟨_, decode_payloadLength (op := .update) (.inl rfl) hr⟩
  · exact ⟨_, decode_payloadLength (op := .hash) (.inr rfl) hr⟩
  · exact ⟨_, decode_seededHashLength hr⟩

/-! ### Packets written out, the length field, the pseudo-instructions -/

/-- Settles O5: each packet is, byte by byte, the encoding of its command. -/
theorem writtenOutPacketsDecode : Obligations.WrittenOutPacketsDecode := by
  unfold Obligations.WrittenOutPacketsDecode
  refine ⟨decode_encode (i := .init none) rfl, ?_, decode_encode (i := .finalize) rfl, ?_,
    decode_eq_ok.2 ⟨rfl, encode_init_some _⟩⟩
  · exact decode_encode (i := .update [0x61#8, 0x62#8, 0x63#8]) rfl
  · exact decode_encode (i := .hash none [0x61#8]) rfl

/-- The number that any row of bytes spells, byte `j` weighted `2^(8j)` (30_encoding R66). -/
theorem le64_eq_sum (s : List Byte) :
    le64 s = ∑ j ∈ Finset.range s.length, (s.getD j 0).toNat * 2 ^ (8 * j) := by
  induction s with
  | nil => rfl
  | cons b s ih =>
    rw [le64, ih, List.length_cons, Finset.sum_range_succ', Finset.mul_sum, Nat.add_comm]
    refine congrArg₂ _ (Finset.sum_congr rfl fun j _ => ?_) (by simp)
    rw [List.getD_cons_succ, Nat.mul_succ, Nat.pow_add]
    ring

/-- Settles O6: the case of eight bytes. -/
theorem lengthFieldIsLittleEndian : Obligations.LengthFieldIsLittleEndian := by
  unfold Obligations.LengthFieldIsLittleEndian
  intro len hlen
  rw [le64_eq_sum, hlen]

/-- Settles O7: a chunk's line assembles to one packet, so the chunks' lines to the list of their packets. -/
theorem pseudoInstructionsExpand : Obligations.PseudoInstructionsExpand := by
  unfold Obligations.PseudoInstructionsExpand
  refine ⟨fun _ _ => rfl, fun seed parts => ?_⟩
  have hparts : parts.flatMap (fun d => assemble (.update d)) = parts.map fun d => commandEvent (.update d) :=
    List.map_eq_flatMap.symm
  rw [hparts]
  rfl

end Sys2Proof.Proofs
end

section
/-! PROOF. What a packet is answered with (30_encoding R69): the status byte alone after a fault, INIT or UPDATE, the
digest behind it after FINALIZE or HASH. -/

namespace Sys2Proof.Proofs

open Sys2Proof Sys2Proof.Machine

/-! ### The commands that answer a digest -/

/-- FINALIZE and HASH (30_encoding R69). -/
def AnswersDigest (i : Instr) : Prop := i = .finalize ∨ ∃ seed data, i = .hash seed data

/-- A packet of FINALIZE or HASH. -/
def IsDigestPacket (p : List Byte) : Prop := decode p = .ok .finalize ∨ ∃ seed data, decode p = .ok (.hash seed data)

theorem isDigestPacket_of_decode {p : List Byte} {i : Instr} (h : decode p = .ok i) :
    IsDigestPacket p ↔ AnswersDigest i := by
  simp [IsDigestPacket, AnswersDigest, h]

/-- A command that completes leaves the session active when it answers no digest, finalized when it answers one
(43 R140). -/
theorem completes_phase {i : Instr} {s u : State} (h : Completes i s u) :
    (¬ AnswersDigest i ∧ u.phase = .active) ∨ (AnswersDigest i ∧ u.phase = .finalized) := by
  cases i with
  | init seed =>
    cases h
    exact .inl ⟨by simp [AnswersDigest], rfl⟩
  | update data =>
    obtain ⟨hactive, -, hu⟩ := h
    exact .inl ⟨by simp [AnswersDigest], by rw [absorbPayload_frame hu]; exact hactive⟩
  | finalize =>
    obtain ⟨-, hu⟩ := h
    exact .inr ⟨.inl rfl, by rw [closeSession_frame hu]⟩
  | hash seed data =>
    obtain ⟨-, w, -, hu⟩ := h
    exact .inr ⟨.inr ⟨seed, data, rfl⟩, by rw [closeSession_frame hu]⟩

/-! ### The response of a command and of a step -/

/-- The one response that `t` adds to the responses `before`, by what the packet was (30_encoding R69): `digests` says
that it held a command that answers a digest. -/
inductive Responds (digests : Prop) (before : List (List Byte)) (t : State) : Prop where
  | faulted (herr : t.err ≠ 0#3) (hresps : t.resps = before ++ [[statusByte t]])
  | status (hok : t.err = 0#3) (hno : ¬ digests) (hphase : t.phase = .active)
      (hresps : t.resps = before ++ [[statusByte t]])
  | digest (hok : t.err = 0#3) (hyes : digests) (hphase : t.phase = .finalized)
      (hresps : t.resps = before ++ [statusByte t :: bytesOf t.acc])

/-- A refused packet (60 R167). -/
theorem respondStatus_of_err_responds {digests : Prop} {s : State} (h : s.err ≠ 0#3) :
    Responds digests s.resps (respondStatus s) :=
  .faulted h rfl

theorem faultCode_ne_zero (f : EngineFault) : faultCode f ≠ 0#3 := by
  cases f <;> decide

/-- Fault entry (60 R166). -/
theorem raise_responds {digests : Prop} (f : EngineFault) {s : State} (h : s.err = 0#3) :
    Responds digests s.resps (raise f s) := by
  rw [raise_of_ok f h]
  exact .faulted (faultCode_ne_zero f) rfl

/-- A command that completes and answers no digest. -/
theorem completes_respondStatus {i : Instr} {s u : State} (h : Completes i s u) (hok : s.err = 0#3)
    (hi : ¬ AnswersDigest i) : Responds (AnswersDigest i) s.resps (respondStatus u) := by
  obtain ⟨herr, -, hresps⟩ := completes_frame h
  obtain ⟨-, hphase⟩ := (completes_phase h).resolve_right fun hd => hi hd.left
  exact .status (herr.trans hok) hi hphase (by rw [respondStatus_resps, hresps]; rfl)

/-- A command that completes and answers a digest. -/
theorem completes_respondDigest {i : Instr} {s u : State} (h : Completes i s u) (hok : s.err = 0#3)
    (hi : AnswersDigest i) : Responds (AnswersDigest i) s.resps (respondDigest u) := by
  obtain ⟨herr, -, hresps⟩ := completes_frame h
  obtain ⟨-, hphase⟩ := (completes_phase h).resolve_left fun hd => hd.left hi
  exact .digest (herr.trans hok) hi hphase (by rw [respondDigest_resps, hresps]; rfl)

/-- A command's response: refused and faulting commands send the status byte, completed ones what R69 says. -/
theorem exec_responds {i : Instr} {s t : State} (h : exec i s = .next t) :
    Responds (AnswersDigest i) s.resps t := by
  cases i with
  | init seed =>
    rcases initCommand_cases h with ⟨he, rfl⟩ | ⟨hok, rfl⟩
    · exact respondStatus_of_err_responds he
    · exact completes_respondStatus (i := .init seed) rfl hok (by simp [AnswersDigest])
  | update data =>
    rcases updateCommand_cases h with ⟨he, rfl⟩ | ⟨hok, f, _, rfl⟩ | ⟨hok, _, _, rfl⟩ | ⟨hok, hp, hc, u, hu, rfl⟩
    · exact respondStatus_of_err_responds he
    · exact raise_responds f hok
    · exact raise_responds _ hok
    · exact completes_respondStatus (i := .update data) ⟨hp, hc, hu⟩ hok (by simp [AnswersDigest])
  | finalize =>
    rcases finalizeCommand_cases h with ⟨he, rfl⟩ | ⟨hok, f, _, rfl⟩ | ⟨hok, hp, u, hu, rfl⟩
    · exact respondStatus_of_err_responds he
    · exact raise_responds f hok
    · exact completes_respondDigest (i := .finalize) ⟨hp, hu⟩ hok (.inl rfl)
  | hash seed data =>
    rcases hashCommand_cases h with ⟨he, rfl⟩ | ⟨hok, _, rfl⟩ | ⟨hok, hl, w, u, hw, hu, rfl⟩
    · exact respondStatus_of_err_responds he
    · exact raise_responds _ hok
    · exact completes_respondDigest (i := .hash seed data) ⟨hl, w, hw, hu⟩ hok (.inr ⟨seed, data, rfl⟩)

/-- A step that takes a packet takes it alone from the channel and sends its response (30_encoding R69). -/
theorem step_responds {s t : State} {p : List Byte} {rest : List HostEvent} (hc : s.cmds = .packet p :: rest)
    (h : step s = .next t) : t.cmds = rest ∧ Responds (IsDigestPacket p) s.resps t := by
  rcases step_cases h with ⟨hnil, _⟩ | ⟨_, hreset, _⟩ | ⟨_, _, hp, herr, rfl⟩ | ⟨_, _, _, hp, hok, _, rfl⟩ |
    ⟨_, _, i, hp, _, hd, hi⟩
  · simp [hc] at hnil
  · simp [hc] at hreset
  all_goals
    rw [hc] at hp
    cases hp
  · exact ⟨rfl, respondStatus_of_err_responds (s := { s with cmds := rest }) herr⟩
  · exact ⟨raise_cmds _ _, raise_responds _ (s := { s with cmds := rest }) hok⟩
  · rw [isDigestPacket_of_decode hd]
    exact ⟨(exec_frame hi).left, exec_responds (s := { s with cmds := rest }) hi⟩

/-! ### The status bytes that occur -/

/-- The status byte of a phase with a fault that it can latch is one of the twelve that R69 lists for faults. -/
theorem statusByte_of_fault {s : State} (hcode : codeAllowed s.phase s.err = true) (herr : s.err ≠ 0#3) :
    statusByte s ∈ [0x01#8, 0x02#8, 0x03#8, 0x04#8, 0x09#8, 0x0a#8, 0x0b#8, 0x0c#8, 0x11#8, 0x12#8, 0x13#8,
      0x14#8] := by
  unfold statusByte
  generalize s.err = e at hcode herr
  generalize s.phase = p at hcode
  revert e
  cases p <;> decide

theorem statusByte_active {s : State} (hok : s.err = 0#3) (hphase : s.phase = .active) : statusByte s = 0x08#8 := by
  rw [statusByte, hok, hphase]
  rfl

theorem statusByte_finalized {s : State} (hok : s.err = 0#3) (hphase : s.phase = .finalized) :
    statusByte s = 0x10#8 := by
  rw [statusByte, hok, hphase]
  rfl

/-- Settles O26: the invariant makes the step answer and bounds the codes latched after it; the three kinds of response
are the three cases. -/
theorem everyPacketGetsItsResponse : Obligations.EveryPacketGetsItsResponse := by
  unfold Obligations.EveryPacketGetsItsResponse
  intro s p rest hinv hc
  obtain ⟨t, ht⟩ := stepAlwaysAnswers s hinv
  obtain ⟨-, -, -, -, hcode⟩ := stepKeepsTheInvariant s t hinv ht
  obtain ⟨hcmds, hresponds⟩ := step_responds hc ht
  cases hresponds with
  | faulted herr hresps =>
    exact ⟨t, [], ht, hcmds, hresps, fun hok => absurd hok herr, fun hok => absurd hok herr, fun _ => rfl,
      by simp, List.mem_cons_of_mem _ (List.mem_cons_of_mem _ (statusByte_of_fault hcode herr))⟩
  | status hok hno hphase hresps =>
    have hstatus := statusByte_active hok hphase
    exact ⟨t, [], ht, hcmds, hresps, fun _ hyes => absurd hyes hno, fun _ _ => ⟨hstatus, rfl⟩, fun _ => rfl,
      by simp, by simp [hstatus]⟩
  | digest hok hyes hphase hresps =>
    have hstatus := statusByte_finalized hok hphase
    exact ⟨t, bytesOf t.acc, ht, hcmds, hresps, fun _ _ => ⟨hstatus, rfl⟩, fun _ hno => absurd hyes hno,
      fun herr => absurd hok herr, by simp, by simp [hstatus]⟩

end Sys2Proof.Proofs
end

section
/-! PROOF. The S-box table (40_mix R82): the generating formula gives it, and it is a permutation with no fixed
point. -/

namespace Sys2Proof.Proofs

open Sys2Proof Sys2Proof.Machine

/-! ### The field on numbers

The kernel computes `Nat.xor`, `Nat.mul`, `Nat.div` and `Nat.mod` of literals at once, so the 256 inverses are evaluated
as numbers, and the three `_toNat` lemmas carry the result over to the model's bytes. -/

/-- `xtime` of the byte with number `a`. -/
def xtimeNat (a : Nat) : Nat := Nat.xor (Nat.mod (Nat.mul 2 a) 256) (Nat.mul 0x1b (Nat.div a 128))

/-- `gfMulBits` of the bytes with numbers `a` and `b`. -/
def gfMulNat (a b : Nat) : Nat → Nat
  | 0 => 0
  | n + 1 => Nat.xor (Nat.mul a (Nat.mod (Nat.div b (Nat.pow 2 (Nat.sub 7 n))) 2)) (xtimeNat (gfMulNat a b n))

/-- `gfInvChain` of the byte with number `a`. -/
def gfInvNat (a : Nat) : Nat → Nat
  | 0 => 1
  | n + 1 => let y := gfMulNat (gfInvNat a n) a 8; gfMulNat y y 8

theorem xtime_toNat (a : Byte) : (xtime a).toNat = xtimeNat a.toNat := by
  revert a
  decide +kernel

theorem gfMulBits_toNat (a b : Byte) (n : Nat) : (gfMulBits a b n).toNat = gfMulNat a.toNat b.toNat n := by
  induction n with
  | zero => rfl
  | succ n ih =>
    have hbit : (if b.getLsbD (7 - n) then a else 0).toNat = a.toNat * (b.toNat / 2 ^ (7 - n) % 2) := by
      rw [BitVec.getLsbD, ← Nat.toNat_testBit]
      cases b.toNat.testBit (7 - n) <;> simp
    rw [gfMulBits, BitVec.toNat_xor, xtime_toNat, ih, hbit]
    rfl

theorem gfInvChain_toNat (a : Byte) (n : Nat) : (gfInvChain a n).toNat = gfInvNat a.toNat n := by
  induction n with
  | zero => rfl
  | succ n ih => simp only [gfInvChain, gfInvNat, gfMul, gfMulBits_toNat, ih]

/-! ### The affine map and its inverse -/

/-- The affine map of the generating formula (40_mix R82), applied there to the inverse. -/
def sboxAffine (y : Byte) : Byte :=
  y ^^^ y.rotateLeft 1 ^^^ y.rotateLeft 2 ^^^ y.rotateLeft 3 ^^^ y.rotateLeft 4 ^^^ 0x63#8

/-- The map that undoes `sboxAffine`. -/
def sboxAffineInverse (z : Byte) : Byte := z.rotateLeft 1 ^^^ z.rotateLeft 3 ^^^ z.rotateLeft 6 ^^^ 0x05#8

theorem sboxFormula_eq_sboxAffine (a : Byte) : sboxFormula a = sboxAffine (gfInvChain a 7) := rfl

theorem sbox_eq_sboxAffine_gfInvNat (a : Byte) : sbox a = sboxAffine (BitVec.ofNat 8 (gfInvNat a.toNat 7)) := by
  revert a
  decide +kernel

theorem sbox_eq_sboxFormula (a : Byte) : sbox a = sboxFormula a := by
  rw [sbox_eq_sboxAffine_gfInvNat, ← gfInvChain_toNat, BitVec.ofNat_toNat, BitVec.setWidth_eq,
    sboxFormula_eq_sboxAffine]

/-- The inverse S-box undoes the affine map and then inverts in the field; a table lookup whose affine map is undone
again is that inversion. -/
theorem sbox_leftInverse : Function.LeftInverse (fun b => sboxAffineInverse (sbox (sboxAffineInverse b))) sbox := by
  unfold Function.LeftInverse
  decide +kernel

theorem sbox_injective : Function.Injective sbox := sbox_leftInverse.injective

theorem sbox_ne_self (a : Byte) : sbox a ≠ a := by
  revert a
  decide +kernel

/-- Settles O13: the inverses are evaluated on numbers, and an injective map of the finitely many bytes is bijective. -/
theorem sboxTableIsGeneratedPermutation : Obligations.SboxTableIsGeneratedPermutation :=
  ⟨sbox_eq_sboxFormula, Finite.injective_iff_bijective.1 sbox_injective, sbox_ne_self⟩

end Sys2Proof.Proofs
end

section
/-! PROOF. MIX byte by byte (40_mix R80 to R85) and its stated properties (R86): each of its four layers is a bijection,
because row shift and column mixing can be undone. -/

namespace Sys2Proof.Proofs

open Sys2Proof Sys2Proof.Machine

/-! ### The layers, byte by byte -/

theorem byteOf_subBytes (v : V128) {j : Nat} (h : j < 16) : byteOf (subBytes v) j = sbox (byteOf v j) :=
  byteOf_ofBytes _ h

theorem byteOf_shiftRows (v : V128) {c r : Nat} (hc : c < 4) (hr : r < 4) :
    byteOf (shiftRows v) (4 * c + r) = byteOf v (r + 4 * ((c + r) % 4)) := by
  rw [shiftRows, byteOf_ofBytes _ (by omega), stateIx, show (4 * c + r) % 4 = r by omega,
    show (4 * c + r) / 4 = c by omega]

/-- A column of `MixColumns` from its four bytes `u 0 .. u 3`. -/
def mixBytes (u : Nat → Byte) : Nat → Byte := mixColumn (u 0) (u 1) (u 2) (u 3)

theorem mixBytes_congr {u u' : Nat → Byte} (h : ∀ i < 4, u i = u' i) : mixBytes u = mixBytes u' := by
  rw [mixBytes, mixBytes, h 0 (by decide), h 1 (by decide), h 2 (by decide), h 3 (by decide)]

theorem byteOf_mixColumns (v : V128) {c r : Nat} (hc : c < 4) (hr : r < 4) :
    byteOf (mixColumns v) (4 * c + r) = mixBytes (fun i => byteOf v (4 * c + i)) r := by
  rw [mixColumns, byteOf_ofBytes _ (by omega), show (4 * c + r) % 4 = r by omega,
    show (4 * c + r) / 4 = c by omega]
  simp only [mixBytes, stateIx, Nat.add_comm]

/-- The byte that `MixColumns` finds in row `r` of column `c`: substituted, and brought there by the row shift. -/
def shiftedByte (a : V128) (c r : Nat) : Byte := sbox (byteOf a (r + 4 * ((c + r) % 4)))

theorem byteOf_mix (a k : V128) {c r : Nat} (hc : c < 4) (hr : r < 4) :
    byteOf (mix a k) (4 * c + r) = mixBytes (shiftedByte a c) r ^^^ byteOf k (4 * c + r) := by
  have hcolumn : ∀ i < 4, byteOf (shiftRows (subBytes a)) (4 * c + i) = shiftedByte a c i := fun i hi => by
    rw [byteOf_shiftRows _ hc hi, byteOf_subBytes _ (by omega), shiftedByte]
  rw [mix, addRoundKey, byteOf_xor, byteOf_mixColumns _ hc hr, mixBytes_congr hcolumn]

/-- Settles O11: row `r` of the column matrix is `mixColumn` at `r`, written out. -/
theorem mixColumnFormula : Obligations.MixColumnFormula := by
  unfold Obligations.MixColumnFormula
  intro a k c hc u
  exact ⟨byteOf_mix (r := 0) a k hc (by decide), byteOf_mix (r := 1) a k hc (by decide),
    byteOf_mix (r := 2) a k hc (by decide), byteOf_mix (r := 3) a k hc (by decide)⟩

/-! ### Each layer is injective -/

/-- A vector value is its four columns. -/
theorem eq_of_columns_eq {v w : V128} (h : ∀ c < 4, ∀ r < 4, byteOf v (4 * c + r) = byteOf w (4 * c + r)) : v = w :=
  eq_of_byteOf_eq fun j hj => by
    have hbyte := h (j / 4) (by omega) (j % 4) (by omega)
    rwa [Nat.div_add_mod] at hbyte

theorem subBytes_injective : Function.Injective subBytes := fun v w h =>
  eq_of_byteOf_eq fun j hj => sbox_injective <| by
    rw [← byteOf_subBytes v hj, ← byteOf_subBytes w hj, h]

/-- Row `r` moves by `r` places, so `4 - r` places on it is back. -/
theorem byteOf_eq_shiftRows (v : V128) {c r : Nat} (hc : c < 4) (hr : r < 4) :
    byteOf v (4 * c + r) = byteOf (shiftRows v) (4 * ((c + (4 - r)) % 4) + r) := by
  rw [byteOf_shiftRows v (by omega) hr]
  congr 1
  omega

theorem shiftRows_injective : Function.Injective shiftRows := fun v w h =>
  eq_of_columns_eq fun c hc r hr => by
    rw [byteOf_eq_shiftRows v hc hr, byteOf_eq_shiftRows w hc hr, h]

theorem xtime_xor (a b : Byte) : xtime (a ^^^ b) = xtime a ^^^ xtime b := by
  have hreduce : ∀ p q : Bool, (if p ^^ q then 0x1b#8 else 0x00#8) =
      (if p then 0x1b#8 else 0x00#8) ^^^ (if q then 0x1b#8 else 0x00#8) := by decide
  rw [xtime, xtime, xtime, BitVec.shiftLeft_xor_distrib, BitVec.getLsbD_xor, hreduce]
  ac_rfl

theorem xor_left_comm (a b c : Byte) : a ^^^ (b ^^^ c) = b ^^^ (a ^^^ c) := by ac_rfl

/-- The sum of a column's four bytes. -/
def columnSum (u : Nat → Byte) : Byte := u 0 ^^^ u 1 ^^^ u 2 ^^^ u 3

/-- The column matrix is the identity, plus the sum of the column, plus `xtime` of two neighbours. -/
theorem mixBytes_eq_add_columnSum (u : Nat → Byte) {r : Nat} (hr : r < 4) :
    mixBytes u r = u r ^^^ columnSum u ^^^ xtime (u r ^^^ u ((r + 1) % 4)) := by
  interval_cases r <;>
    simp [mixBytes, mixColumn, mul3, columnSum, xtime_xor, BitVec.xor_assoc, BitVec.xor_comm, xor_left_comm]

theorem columnSum_mixBytes (u : Nat → Byte) : columnSum (mixBytes u) = columnSum u := by
  simp [mixBytes, mixColumn, mul3, columnSum, BitVec.xor_assoc, BitVec.xor_comm, xor_left_comm]

/-- In the square of the column matrix the sum cancels, and only bytes two rows apart meet. -/
theorem mixBytes_mixBytes (u : Nat → Byte) {r : Nat} (hr : r < 4) :
    mixBytes (mixBytes u) r = u r ^^^ xtime (xtime (u r ^^^ u ((r + 2) % 4))) := by
  have hnext : ((r + 1) % 4 + 1) % 4 = (r + 2) % 4 := by omega
  rw [mixBytes_eq_add_columnSum _ hr, columnSum_mixBytes, mixBytes_eq_add_columnSum u hr,
    mixBytes_eq_add_columnSum u (r := (r + 1) % 4) (by omega), hnext]
  simp [xtime_xor, BitVec.xor_assoc, BitVec.xor_comm, xor_left_comm]

theorem byteOf_mixColumns_mixColumns (v : V128) {c r : Nat} (hc : c < 4) (hr : r < 4) :
    byteOf (mixColumns (mixColumns v)) (4 * c + r) =
      byteOf v (4 * c + r) ^^^
        xtime (xtime (byteOf v (4 * c + r) ^^^ byteOf v (4 * c + (r + 2) % 4))) := by
  rw [byteOf_mixColumns _ hc hr, mixBytes_congr fun i hi => byteOf_mixColumns v hc hi]
  exact mixBytes_mixBytes _ hr

/-- Two bytes that both change by four times their sum keep that sum, so that changing them again is back. -/
theorem xor_xtime_xtime_undo (p q : Byte) :
    p ^^^ xtime (xtime (p ^^^ q)) ^^^
      xtime (xtime (p ^^^ xtime (xtime (p ^^^ q)) ^^^ (q ^^^ xtime (xtime (q ^^^ p))))) = p := by
  rw [BitVec.xor_comm q p]
  generalize hd : xtime (xtime (p ^^^ q)) = d
  have hsum : p ^^^ d ^^^ (q ^^^ d) = p ^^^ q := by
    rw [BitVec.xor_assoc, xor_xor_cancel_comm_assoc]
  rw [hsum, hd, xor_cancel_right]

/-- The square of the column matrix is its own inverse. -/
theorem mixColumns_mixColumns_involutive : Function.Involutive (mixColumns ∘ mixColumns) := fun v =>
  eq_of_columns_eq fun c hc r hr => by
    have hrow : (r + 2) % 4 < 4 := Nat.mod_lt _ (by decide)
    have hback : ((r + 2) % 4 + 2) % 4 = r := by omega
    rw [Function.comp_apply, Function.comp_apply, byteOf_mixColumns_mixColumns _ hc hr,
      byteOf_mixColumns_mixColumns v hc hr, byteOf_mixColumns_mixColumns v hc hrow, hback, xor_xtime_xtime_undo]

theorem mixColumns_injective : Function.Injective mixColumns :=
  mixColumns_mixColumns_involutive.injective.of_comp

/-! ### The properties of R86 -/

theorem mix_injective_state (k : V128) : Function.Injective fun a => mix a k := fun _ _ h =>
  subBytes_injective (shiftRows_injective (mixColumns_injective ((BitVec.xor_left_inj k).1 h)))

theorem mix_bijective_material (a : V128) : Function.Bijective fun k => mix a k :=
  (xor_right_involutive _).bijective

theorem mix_eq_mix_zero_xor (a k : V128) : mix a k = mix a zero128 ^^^ k := by
  rw [mix, mix, addRoundKey, addRoundKey, zero128, BitVec.xor_zero]

/-- The state's bytes that row shift brings to column `c` are the four of 40_mix R86 item 4. -/
theorem shiftedByte_congr {a a' : V128} {c : Nat}
    (h : ∀ r < 4, byteOf a (4 * ((c + r) % 4) + r) = byteOf a' (4 * ((c + r) % 4) + r)) :
    ∀ r < 4, shiftedByte a c r = shiftedByte a' c r := fun r hr => by
  rw [shiftedByte, shiftedByte, Nat.add_comm r, h r hr]

/-- Settles O12: `MIX` is injective on the finitely many states, so bijective; and column `c` of the answer is made of
the bytes `shiftedByte a c` and of material column `c`. -/
theorem mixHasTheStatedProperties : Obligations.MixHasTheStatedProperties := by
  unfold Obligations.MixHasTheStatedProperties
  refine ⟨mix_eq_mix_zero_xor, fun k => Finite.injective_iff_bijective.1 (mix_injective_state k),
    mix_bijective_material, by decide +kernel, ?_⟩
  intro a a' k k' c hc h0 h1 h2 h3 hk i hi
  have hstate : ∀ r < 4, byteOf a (4 * ((c + r) % 4) + r) = byteOf a' (4 * ((c + r) % 4) + r) := by
    intro r hr
    interval_cases r
    · simpa [Nat.mod_eq_of_lt hc] using h0
    · exact h1
    · exact h2
    · exact h3
  rw [byteOf_mix a k hc hi, byteOf_mix a' k' hc hi, mixBytes_congr (shiftedByte_congr hstate), hk i hi]

end Sys2Proof.Proofs
end

section
/-! PROOF. Padding blocks byte by byte, and the offsets of their data (41_schedule_padding R105 to R107). -/

namespace Sys2Proof.Proofs

open Sys2Proof Sys2Proof.Machine

/-! ### The offsets -/

/-- The field of `CFG` is one of the `16 / w` positions of R105, and the offset is that position times the width. -/
theorem offOf_eq_widthBytes_mul (c : Cfg) (w : TailWidth) :
    ∃ q, offOf c w = widthBytes w * q ∧ widthBytes w * (q + 1) ≤ 16 := by
  cases w with
  | w8 => exact ⟨c.pos8, rfl, Nat.mul_le_mul_left 8 c.pos8.isLt⟩
  | w4 => exact ⟨c.pos4, rfl, Nat.mul_le_mul_left 4 c.pos4.isLt⟩
  | w2 => exact ⟨c.pos2, rfl, Nat.mul_le_mul_left 2 c.pos2.isLt⟩
  | w1 => exact ⟨c.pos1, (Nat.one_mul _).symm, Nat.mul_le_mul_left 1 c.pos1.isLt⟩

theorem widthBytes_dvd_offOf (c : Cfg) (w : TailWidth) : widthBytes w ∣ offOf c w := by
  obtain ⟨q, hoff, -⟩ := offOf_eq_widthBytes_mul c w
  exact ⟨q, hoff⟩

theorem offOf_add_widthBytes_le (c : Cfg) (w : TailWidth) : offOf c w + widthBytes w ≤ 16 := by
  obtain ⟨q, hoff, hfit⟩ := offOf_eq_widthBytes_mul c w
  rwa [hoff, ← Nat.mul_succ]

/-- Settles O14: the data fills one whole position of R105. -/
theorem padOffsetsAreWholePositions : Obligations.PadOffsetsAreWholePositions :=
  fun c w => ⟨widthBytes_dvd_offOf c w, offOf_add_widthBytes_le c w⟩

/-! ### The block -/

theorem byteOf_padBlock (c : Cfg) (w : TailWidth) (t : List Byte) {i : Nat} (h : i < 16) :
    byteOf (padBlock c w t) i =
      if offOf c w ≤ i ∧ i < offOf c w + widthBytes w then t.getD (i - offOf c w) 0 else byteOf (fillOf c w) i :=
  byteOf_ofBytes _ h

/-- The data reads back from its position. -/
theorem byteOf_padBlock_offOf_add (c : Cfg) {w : TailWidth} {t : List Byte} (ht : t.length = widthBytes w) {j : Nat}
    (hj : j < t.length) : byteOf (padBlock c w t) (offOf c w + j) = t[j] := by
  have hfit := offOf_add_widthBytes_le c w
  rw [byteOf_padBlock c w t (by omega), if_pos (by omega), Nat.add_sub_cancel_left, List.getD_eq_getElem _ _ hj]

theorem padBlock_injective (c : Cfg) {w : TailWidth} {t t' : List Byte} (ht : t.length = widthBytes w)
    (ht' : t'.length = widthBytes w) (h : padBlock c w t = padBlock c w t') : t = t' :=
  List.ext_getElem (ht.trans ht'.symm) fun j hj hj' => by
    rw [← byteOf_padBlock_offOf_add c ht hj, ← byteOf_padBlock_offOf_add c ht' hj', h]

/-- Only the filler outside the data reaches the block. -/
theorem padBlock_congr {c c' : Cfg} {w : TailWidth} (t : List Byte) (hoff : offOf c w = offOf c' w)
    (hfill : ∀ i < 16, ¬ (offOf c w ≤ i ∧ i < offOf c w + widthBytes w) →
      byteOf (fillOf c w) i = byteOf (fillOf c' w) i) :
    padBlock c w t = padBlock c' w t :=
  ofBytes_congr fun i hi => by
    rw [← hoff]
    split
    case isTrue => rfl
    case isFalse hout => exact hfill i hi hout

/-- Settles O15: the block is read byte by byte; its data bytes give the tail back, the other bytes are filler. -/
theorem padBlockPlacesTheTail : Obligations.PadBlockPlacesTheTail :=
  ⟨fun c w t _ _ hi => byteOf_padBlock c w t hi, fun c _ _ _ ht ht' => padBlock_injective c ht ht',
    fun _ _ _ t _ hoff hfill => padBlock_congr t hoff hfill⟩

end Sys2Proof.Proofs
end

section
/-! PROOF. The small-key and large-key algorithms as folds over their blocks (42_oneshot R120 to R130). -/

namespace Sys2Proof.Proofs

open Sys2Proof Sys2Proof.Machine

/-! ### The loops are folds -/

/-- `BLOCKS16`'s loop folds the same blocks into both accumulators (42 R121). -/
theorem blockLoop_eq_foldl (data : List Byte) (n p : Nat) (h temp : V128) :
    blockLoop data n p h temp =
      (((List.range n).map fun i => load16 (slice data (p + 16 * i) 16)).foldl mix h,
        ((List.range n).map fun i => load16 (slice data (p + 16 * i) 16)).foldl mix temp) := by
  induction n generalizing p h temp with
  | zero => rfl
  | succ n ih =>
    have hshift (i : Nat) : p + 16 + 16 * i = p + 16 * (i + 1) := by omega
    simp only [blockLoop, ih, hshift, List.range_succ_eq_map, List.map_cons, List.map_map, List.foldl_cons,
      Nat.mul_zero, Nat.add_zero, Function.comp_def]

/-- The bulk loop folds its super-blocks in stream order (42 R129 step 2). -/
theorem absorbRun_eq_foldl (data : List Byte) (n p : Nat) (l : Lanes) :
    absorbRun data n p l = (List.range n).foldl (fun l k => absorb64 l (slice data (p + 64 * k) 64)) l := by
  induction n generalizing p l with
  | zero => rfl
  | succ n ih =>
    have hshift (k : Nat) : p + 64 + 64 * k = p + 64 * (k + 1) := by omega
    simp only [absorbRun, ih, hshift, List.range_succ_eq_map, List.foldl_map, List.foldl_cons, Nat.mul_zero,
      Nat.add_zero]

/-! ### The small-key algorithm -/

/-- The cursor stands behind the last full block, also when there is none (42 R121). -/
theorem blocks16_cursor (c : Cfg) (h : V128) (data : List Byte) :
    (blocks16 c h data).2 = 16 * (data.length / 16) := by
  unfold blocks16
  by_cases hnb : data.length / 16 = 0 <;> simp [hnb]

/-- Settles O16: the loop is a fold of the blocks into each accumulator. -/
theorem smallKeyBlocksFoldInOrder : Obligations.SmallKeyBlocksFoldInOrder := by
  unfold Obligations.SmallKeyBlocksFoldInOrder
  intro c h data _ blocks
  have hlen : blocks.length = data.length / 16 := by simp [blocks]
  by_cases hnb : data.length / 16 = 0
  · have hnil : blocks = [] := List.length_eq_zero_iff.1 (hlen.trans hnb)
    simp [blocks16, hnb, hnil]
  · have hne : blocks ≠ [] := fun hnil => hnb (by rw [← hlen, hnil, List.length_nil])
    simp only [blocks16, if_neg hnb, if_neg hne, blockLoop_eq_foldl, Nat.zero_add, hlen, blocks]

/-- Settles O18: the bytes after the cursor are the bytes after the last full block. -/
theorem smallKeyRunsItsSteps : Obligations.SmallKeyRunsItsSteps := by
  unfold Obligations.SmallKeyRunsItsSteps
  intro c data seed _
  simp only [smallKey, fin3, blocks16_cursor, slice_to_end]

/-! ### The large-key algorithm -/

/-- `LARGEKEY` in the terms of a session: the lanes absorb the super-blocks, the pending bytes are its tail (42
R129). -/
theorem largeKey_eq (c : Cfg) (data : List Byte) (seed : V128) :
    largeKey c data seed =
      mix (reduce (xLane (tailL c (absorbRun data (data.length / 64) 0 (laneInit c seed)) (pendingOf data))))
        c.k9k10 := by
  simp only [largeKey, slice_to_end, pendingOf]

/-- Settles O20: the bulk loop is a fold of the super-blocks; cross-lane mix and reduction are written out. -/
theorem largeKeyRunsItsSteps : Obligations.LargeKeyRunsItsSteps := by
  unfold Obligations.LargeKeyRunsItsSteps
  intro c data seed _
  simp only [largeKey_eq, absorbRun_eq_foldl, Nat.zero_add, pendingOf, reduce, xLane]

end Sys2Proof.Proofs
end

section
/-! PROOF. The two tail cascades (42_oneshot R122, R126): a tail is consecutive units, the widest first, and each line
of a cascade takes the unit that stands at its cursor. -/

namespace Sys2Proof.Proofs

open Sys2Proof Sys2Proof.Machine

/-! ### The unit at the cursor -/

/-- A cascade over the tail `t` has come to its line for width `w`: behind the cursor `q` stand the unit `u`, present
or absent, and narrower units `rest`; before it stand only wider units. -/
structure UnitAt (t : List Byte) (w q : Nat) (u rest : List Byte) : Prop where
  split : ∃ front, t = front ++ (u ++ rest) ∧ front.length = q
  wider : 2 * w ∣ q
  width : u.length = w ∨ u = []
  narrower : rest.length < w

theorem unitAt_first {w : Nat} {u rest : List Byte} (hu : u.length = w ∨ u = []) (hrest : rest.length < w) :
    UnitAt (u ++ rest) w 0 u rest :=
  ⟨⟨[], rfl, rfl⟩, Nat.dvd_zero _, hu, hrest⟩

/-- The cursor moves over a unit to the next one, half as wide. -/
theorem UnitAt.next {t u v rest : List Byte} {w q : Nat} (h : UnitAt t (2 * w) q u (v ++ rest))
    (hv : v.length = w ∨ v = []) (hrest : rest.length < w) : UnitAt t w (q + u.length) v rest := by
  obtain ⟨⟨front, rfl, rfl⟩, hwider, hwidth, -⟩ := h
  refine ⟨⟨front ++ u, (List.append_assoc ..).symm, List.length_append⟩, ?_, hv, hrest⟩
  refine Nat.dvd_add (dvd_of_mul_left_dvd hwider) ?_
  rcases hwidth with hlen | rfl
  · rw [hlen]
  · exact Nat.dvd_zero _

theorem length_unit_append_lt {w : Nat} {u rest : List Byte} (hu : u.length = w ∨ u = []) (hrest : rest.length < w) :
    (u ++ rest).length < 2 * w := by
  rcases hu with hlen | rfl
  · rw [List.length_append]
    omega
  · rw [List.nil_append]
    omega

/-- A unit is present exactly when its bit of the tail's length is set (42 R122). -/
theorem unitPresent_of_unitAt {t u rest : List Byte} {w k q : Nat} (h : UnitAt t w q u rest) (hw : w = 2 ^ k) :
    unitPresent t.length w = decide (u ≠ []) := by
  subst hw
  obtain ⟨⟨front, rfl, rfl⟩, ⟨m, hm⟩, hwidth, hrest⟩ := h
  have hpos := Nat.two_pow_pos k
  rw [unitPresent_two_pow, Nat.testBit_eq_decide_div_mod_eq, List.length_append, List.length_append, hm]
  rcases hwidth with hlen | rfl
  · have hne : u ≠ [] := List.ne_nil_of_length_pos (hlen ▸ hpos)
    rw [hlen, show 2 * 2 ^ k * m + (2 ^ k + rest.length) = rest.length + 2 ^ k * (2 * m + 1) by ring,
      Nat.add_mul_div_left _ _ hpos, Nat.div_eq_of_lt hrest]
    simp [hne]
  · rw [List.length_nil, show 2 * 2 ^ k * m + (0 + rest.length) = rest.length + 2 ^ k * (2 * m) by ring,
      Nat.add_mul_div_left _ _ hpos, Nat.div_eq_of_lt hrest]
    simp

theorem slice_middle (front u rest : List Byte) :
    slice (front ++ (u ++ rest)) front.length u.length = u := by
  rw [slice, List.drop_left, List.take_left]

/-- The bytes that a line of a cascade takes are the unit at its cursor. -/
theorem slice_of_unitAt {t u rest : List Byte} {w q : Nat} (h : UnitAt t w q u rest) (hne : u ≠ []) :
    slice t q w = u := by
  obtain ⟨⟨front, rfl, rfl⟩, -, hwidth, -⟩ := h
  rw [← hwidth.resolve_right hne, slice_middle]

theorem widthBytes_eq_two_pow (w : TailWidth) : ∃ k, widthBytes w = 2 ^ k := by
  cases w with
  | w8 => exact ⟨3, rfl⟩
  | w4 => exact ⟨2, rfl⟩
  | w2 => exact ⟨1, rfl⟩
  | w1 => exact ⟨0, rfl⟩

theorem shortUnitPresent_of_unitAt {t u rest : List Byte} {w : TailWidth} {q : Nat}
    (h : UnitAt t (widthBytes w) q u rest) : unitPresent t.length (widthBytes w) = decide (u ≠ []) := by
  obtain ⟨k, hk⟩ := widthBytes_eq_two_pow w
  exact unitPresent_of_unitAt h hk

/-! ### The small-key cascade -/

/-- One line of `TAILS` (42 R122). -/
theorem xorUnit_of_unitAt (c : Cfg) {t u rest : List Byte} {w : TailWidth} {q : Nat}
    (hat : UnitAt t (widthBytes w) q u rest) (h : V128) :
    xorUnit c t w (h, q) = (h ^^^ (if u = [] then zero128 else padBlock c w u), q + u.length) := by
  unfold xorUnit
  rw [shortUnitPresent_of_unitAt hat]
  by_cases hu : u = []
  · simp [hu, zero128]
  · simp [hu, slice_of_unitAt hat hu, hat.width.resolve_right hu]

/-- Settles O17: the cursor walks over the four units, and each line XORs the one it stands at. -/
theorem smallKeyTailXorsItsUnits : Obligations.SmallKeyTailXorsItsUnits := by
  unfold Obligations.SmallKeyTailXorsItsUnits
  intro c h u8 u4 u2 u1 h8 h4 h2 h1
  rw [show u8 ++ u4 ++ u2 ++ u1 = u8 ++ (u4 ++ (u2 ++ (u1 ++ []))) by simp]
  have short1 : ([] : List Byte).length < 1 := Nat.one_pos
  have short2 := length_unit_append_lt h1 short1
  have short4 := length_unit_append_lt h2 short2
  have short8 := length_unit_append_lt h4 short4
  have at8 : UnitAt _ (widthBytes .w8) 0 u8 _ := unitAt_first h8 short8
  have at4 : UnitAt _ (widthBytes .w4) _ u4 _ := at8.next h4 short4
  have at2 : UnitAt _ (widthBytes .w2) _ u2 _ := at4.next h2 short2
  have at1 : UnitAt _ (widthBytes .w1) _ u1 _ := at2.next h1 short1
  rw [tails, xorUnit_of_unitAt c at8, xorUnit_of_unitAt c at4, xorUnit_of_unitAt c at2, xorUnit_of_unitAt c at1]

/-! ### The large-key cascade -/

/-- A lane takes the material of a unit, when the unit is present. -/
def feed (u : List Byte) (material v : V128) : V128 := if u = [] then v else mix v material

/-- `feed` on one of the four lanes. -/
def feedLane (i : Fin 4) (u : List Byte) (material : V128) (l : Lanes) : Lanes :=
  match i with
  | 0 => { l with l0 := feed u material l.l0 }
  | 1 => { l with l1 := feed u material l.l1 }
  | 2 => { l with l2 := feed u material l.l2 }
  | 3 => { l with l3 := feed u material l.l3 }

theorem feedLane_nil (i : Fin 4) (material : V128) (l : Lanes) : feedLane i [] material l = l := by
  match i with
  | 0 | 1 | 2 | 3 => rfl

theorem feedLane_of_ne_nil (i : Fin 4) {u : List Byte} (hu : u ≠ []) (material : V128) (l : Lanes) :
    feedLane i u material l = mixLane i material l := by
  match i with
  | 0 | 1 | 2 | 3 => simp only [feedLane, feed, mixLane, if_neg hu]

/-- A line of `TAILL` for a unit of 8, 4, 2 or 1 bytes (42 R126). -/
theorem mixUnit_of_unitAt (c : Cfg) {t u rest : List Byte} {w : TailWidth} {q : Nat}
    (hat : UnitAt t (widthBytes w) q u rest) (l : Lanes) :
    mixUnit c t w (l, q) = (feedLane (laneOfWidth w) u (padBlock c w u) l, q + u.length) := by
  unfold mixUnit
  rw [shortUnitPresent_of_unitAt hat]
  by_cases hu : u = []
  · simp [hu, feedLane_nil]
  · simp [hu, feedLane_of_ne_nil, slice_of_unitAt hat hu, hat.width.resolve_right hu]

/-- The line of `TAILL` for a 16-byte unit (42 R126). -/
theorem mixUnit16_of_unitAt {t u rest : List Byte} {q : Nat} (hat : UnitAt t 16 q u rest) (l : Lanes) :
    mixUnit16 t (l, q) = (feedLane 2 u (load16 u) l, q + u.length) := by
  unfold mixUnit16
  rw [unitPresent_of_unitAt (k := 4) hat rfl]
  by_cases hu : u = []
  · simp [hu, feedLane_nil]
  · simp [hu, feedLane_of_ne_nil, slice_of_unitAt hat hu, hat.width.resolve_right hu]

/-- The first line of `TAILL`: the two halves of a 32-byte unit (42 R126). -/
theorem mixUnit32_of_unitAt {t a b rest : List Byte} {q : Nat} (hat : UnitAt t 32 q (a ++ b) rest)
    (hab : a.length = 16 ∧ b.length = 16 ∨ a = [] ∧ b = []) (l : Lanes) :
    mixUnit32 t (l, q) = (feedLane 1 b (load16 b) (feedLane 0 a (load16 a) l), q + (a ++ b).length) := by
  unfold mixUnit32
  rw [unitPresent_of_unitAt (k := 5) hat rfl]
  rcases hab with ⟨ha, hb⟩ | ⟨rfl, rfl⟩
  · obtain ⟨⟨front, rfl, rfl⟩, -, -, -⟩ := hat
    have hane : a ≠ [] := List.ne_nil_of_length_pos (by omega)
    have hbne : b ≠ [] := List.ne_nil_of_length_pos (by omega)
    have hfirst : slice (front ++ (a ++ (b ++ rest))) front.length 16 = a := by
      simpa [ha] using slice_middle front a (b ++ rest)
    have hsecond : slice (front ++ (a ++ (b ++ rest))) (front.length + 16) 16 = b := by
      simpa [ha, hb] using slice_middle (front ++ a) b rest
    simp [feedLane_of_ne_nil, hane, hbne, hfirst, hsecond, ha, hb]
  · simp [feedLane_nil]

/-- Settles O19: the cursor walks over the six units, and each line feeds the one it stands at to its lane. -/
theorem largeKeyTailMixesItsUnits : Obligations.LargeKeyTailMixesItsUnits := by
  unfold Obligations.LargeKeyTailMixesItsUnits
  intro c l a b u16 u8 u4 u2 u1 hab h16 h8 h4 h2 h1
  have h32 : (a ++ b).length = 32 ∨ a ++ b = [] := by
    rcases hab with ⟨ha, hb⟩ | ⟨rfl, rfl⟩
    · exact .inl (by rw [List.length_append, ha, hb])
    · exact .inr rfl
  rw [show a ++ b ++ u16 ++ u8 ++ u4 ++ u2 ++ u1 = (a ++ b) ++ (u16 ++ (u8 ++ (u4 ++ (u2 ++ (u1 ++ []))))) by simp]
  have short1 : ([] : List Byte).length < 1 := Nat.one_pos
  have short2 := length_unit_append_lt h1 short1
  have short4 := length_unit_append_lt h2 short2
  have short8 := length_unit_append_lt h4 short4
  have short16 := length_unit_append_lt h8 short8
  have short32 := length_unit_append_lt h16 short16
  have at32 : UnitAt _ 32 0 (a ++ b) _ := unitAt_first h32 short32
  have at16 : UnitAt _ 16 _ u16 _ := at32.next h16 short16
  have at8 : UnitAt _ (widthBytes .w8) _ u8 _ := at16.next h8 short8
  have at4 : UnitAt _ (widthBytes .w4) _ u4 _ := at8.next h4 short4
  have at2 : UnitAt _ (widthBytes .w2) _ u2 _ := at4.next h2 short2
  have at1 : UnitAt _ (widthBytes .w1) _ u1 _ := at2.next h1 short1
  rw [tailL, mixUnit32_of_unitAt at32 hab, mixUnit16_of_unitAt at16, mixUnit_of_unitAt c at8, mixUnit_of_unitAt c at4,
    mixUnit_of_unitAt c at2, mixUnit_of_unitAt c at1]
  rfl

end Sys2Proof.Proofs
end

section
/-! PROOF. HASH answers `HYBRID(data, seed)` (42_oneshot R131, R132): it is a session of one chunk, and FINALIZE of a
session answers `HYBRID` of its stream. -/

namespace Sys2Proof.Proofs

open Sys2Proof Sys2Proof.Machine

/-! ### FINALIZE of a session -/

/-- `BufRead` of the pending cells of a session reads its stream's pending bytes. -/
theorem bufRead_accepted {c : Cfg} {seed : V128} {stream : List Byte} {s : State} (h : Accepted c seed stream s) :
    bufRead s.buf 0 (remainder s) = .ok (pendingOf stream) :=
  bufRead_eq_ok (accepted_remainder h).symm (by have := remainder_lt s; omega) fun i hi => by
    rw [Nat.zero_add, accepted_read h hi]

/-- The state in which FINALIZE leaves a session that has accepted `stream` (43 R143). -/
def closedSession (c : Cfg) (seed : V128) (stream : List Byte) (s : State) : State :=
  { s with
    lanes := if stream.length < 64 then s.lanes else xLane (tailL c s.lanes (pendingOf stream))
    acc := hybrid c stream seed
    phase := .finalized }

@[simp] theorem closedSession_acc (c : Cfg) (seed : V128) (stream : List Byte) (s : State) :
    (closedSession c seed stream s).acc = hybrid c stream seed := rfl
@[simp] theorem closedSession_resps (c : Cfg) (seed : V128) (stream : List Byte) (s : State) :
    (closedSession c seed stream s).resps = s.resps := rfl
@[simp] theorem closedSession_lanes (c : Cfg) (seed : V128) (stream : List Byte) (s : State) :
    (closedSession c seed stream s).lanes =
      if stream.length < 64 then s.lanes else xLane (tailL c s.lanes (pendingOf stream)) := rfl

/-- FINALIZE of a session leaves `HYBRID` of its stream in `ACC` (43 R143, 42 R130). -/
theorem closeSession_accepted {c : Cfg} {seed : V128} {stream : List Byte} {s : State}
    (h : Accepted c seed stream s) :
    closeSession c s = .ok (closedSession c seed stream s) := by
  have hread := bufRead_accepted h
  obtain ⟨-, hseed, -, hcount, hlanes, -⟩ := h
  by_cases hshort : stream.length < 64
  · have hrem : remainder s = s.count.toNat := Nat.mod_eq_of_lt (hcount ▸ hshort)
    have hpend : pendingOf stream = stream := by simp [pendingOf, Nat.div_eq_of_lt hshort]
    rw [hrem, hpend] at hread
    rw [closeSession_short (hcount ▸ hshort) hread, closedSession, hybrid, threshold, if_pos hshort,
      if_pos hshort, hseed]
  · rw [closeSession_long (by omega) hread, closedSession, hybrid, threshold, if_neg hshort,
      if_neg hshort, largeKey_eq, hlanes]

/-! ### The inner steps of HASH -/

/-- INIT opens the session of the empty stream (43 R141). -/
theorem openSession_accepted (c : Cfg) (v : V128) (s : State) : Accepted c v [] (openSession c v s) :=
  ⟨rfl, rfl, Nat.zero_le _, rfl, rfl, fun _ hi => absurd hi (Nat.not_lt_zero _)⟩

/-- With no byte pending, the cells of the payload's last bytes are written and no other (43 R142 step (c)). -/
theorem absorbPayload_read_aligned {data : List Byte} {s u : State} (h : absorbPayload data s = .ok u)
    (hr : remainder s = 0) (a : Nat) :
    u.buf.read a = if a < data.length % 64 then data[64 * (data.length / 64) + a]? else s.buf.read a := by
  rcases absorbPayload_cases h with ⟨rfl, rfl⟩ | ⟨_, hpos, _⟩ | ⟨_, hpos, _⟩ | ⟨_, _, h⟩
  · rfl
  · omega
  · omega
  · rw [absorbRest_eq s (Nat.zero_le _)] at h
    cases h
    rw [read_writeCells, fullBlocks, Nat.sub_zero, Nat.zero_add, Nat.zero_add, ← pendingOf, pendingOf_length,
      pendingOf_getElem?]
    simp

/-- HASH that passes its tests answers with the digest that its inner steps leave (42 R131). -/
theorem hashCommand_completes {c : Cfg} {v : V128} {data : List Byte} {s u : State} (hok : s.err = 0#3)
    (hlen : data.length ≤ maxInput) (hu : hashSteps c v data s = .ok u) :
    hashCommand c v data s = .next (respondDigest u) := by
  rw [hashCommand, unlessFaulted_of_ok hok, if_neg (Nat.not_lt.2 hlen), hu, finish]

/-- The inner steps of HASH are a session of one chunk (42 R132): its state after UPDATE, closed. -/
theorem hashSteps_eq (c : Cfg) (v : V128) {data : List Byte} (s : State) (hlen : data.length ≤ maxInput) :
    ∃ w, absorbPayload data (openSession c v s) = .ok w ∧ Accepted c v data w ∧
      hashSteps c v data s = .ok (closedSession c v data w) := by
  have hopen := openSession_accepted c v s
  obtain ⟨w, hw⟩ := absorbPayload_answers (data := data) (accepted_pendingReadable hopen)
  have haccepted : Accepted c v data w := absorbPayload_accepted hopen hw (by simpa using hlen)
  exact ⟨w, hw, haccepted, by simp only [hashSteps, hw, closeSession_accepted haccepted]⟩

/-- Settles O46: HASH runs a session of one chunk on whatever registers and cells it finds. -/
theorem hashAnswersHybrid : Obligations.HashAnswersHybrid := by
  unfold Obligations.HashAnswersHybrid
  intro s seed data hok hlen
  obtain ⟨w, hw, haccepted, hsteps⟩ := hashSteps_eq Config.cfg (seedOr seed) s hlen
  have hread := absorbPayload_read_aligned hw (remainder_of_count_zero (openSession_count _ _ s))
  have hframe := absorbPayload_frame hw
  have herr : w.err = 0#3 := by
    rw [hframe]
    exact hok
  have hcmds : w.cmds = s.cmds := by rw [hframe, openSession_cmds]
  have hresps : w.resps = s.resps := by rw [hframe, openSession_resps]
  obtain ⟨-, hseed, -, hcount, hlanes, -⟩ := haccepted
  refine ⟨_, hashCommand_completes hok hlen hsteps, rfl, rfl, herr, hseed, hcount, hcmds, ?_, hread, ?_⟩
  · rw [respondDigest_resps, statusByte_finalized (s := closedSession Config.cfg (seedOr seed) data w) herr rfl,
      closedSession_resps, closedSession_acc, hresps, seedOr]
  · rw [respondDigest_lanes, closedSession_lanes, hlanes]
    by_cases hshort : data.length < 64
    · rw [if_pos hshort, if_pos hshort, Nat.div_eq_of_lt hshort]
      rfl
    · rw [if_neg hshort, if_neg hshort]
      rfl

end Sys2Proof.Proofs
end

section
/-! PROOF. INIT and UPDATE answer (43_incremental R141, R142, R144): the state after each of them, what UPDATE stores
cell by cell, and `COUNT`. -/

namespace Sys2Proof.Proofs

open Sys2Proof Sys2Proof.Machine

/-! ### The responses of a command that completes -/

/-- In an active session with no fault the status byte sent is `08` (30_encoding R69). -/
theorem respondStatus_active {s : State} (hok : s.err = 0#3) (hphase : s.phase = .active) :
    respondStatus s = { s with resps := s.resps ++ [[0x08#8]] } := by
  rw [respondStatus, statusByte_active hok hphase]
  rfl

/-- A faulted engine only answers the status byte, whatever the command (60 R167). -/
theorem exec_of_err (i : Instr) {s : State} (h : s.err ≠ 0#3) : exec i s = .next (respondStatus s) := by
  cases i with
  | init seed => rw [exec, execInit, initCommand, unlessFaulted_of_err h]
  | update data => rw [exec, execUpdate, updateCommand, unlessFaulted_of_err h]
  | finalize => rw [exec, execFinalize, finalizeCommand, unlessFaulted_of_err h]
  | hash seed data => rw [exec, execHash, hashCommand, unlessFaulted_of_err h]

/-! ### INIT -/

/-- INIT passes its one test in every phase (43 R141). -/
theorem initCommand_completes (c : Cfg) (v : V128) {s : State} (hok : s.err = 0#3) :
    initCommand c v s = .next (respondStatus (openSession c v s)) := by
  rw [initCommand, unlessFaulted_of_ok hok]

/-- Settles O40: the session opened, with the status byte of an active session; with a fault latched, the refusal. -/
theorem initOpensASession : Obligations.InitOpensASession := by
  unfold Obligations.InitOpensASession
  refine ⟨fun s seed hok => ?_, fun s seed herr => exec_of_err (.init seed) herr⟩
  have hexec : exec (.init seed) s = _ := initCommand_completes Config.cfg (seedOr seed) hok
  have herr : (openSession Config.cfg (seedOr seed) s).err = 0#3 := hok
  rw [hexec, respondStatus_active herr (openSession_phase ..)]
  rfl

/-- Settles O47: a session just opened has accepted nothing. -/
theorem initStartsTheEmptyStream : Obligations.InitStartsTheEmptyStream := by
  unfold Obligations.InitStartsTheEmptyStream
  intro s seed hok
  exact ⟨_, initCommand_completes Config.cfg (seedOr seed) hok, hok, openSession_accepted Config.cfg (seedOr seed) s⟩

/-! ### UPDATE: the pending bytes and the payload as one string -/

/-- The pending cells after a payload hold what the pending bytes and the payload leave over (43 R142). -/
theorem absorbPayload_read_pending {data pend : List Byte} {s u : State} (h : absorbPayload data s = .ok u)
    (hl : pend.length = remainder s) (hp : ∀ i < remainder s, s.buf.read i = pend[i]?) {i : Nat}
    (hi : i < remainder u) : u.buf.read i = (pendingOf (pend ++ data))[i]? := by
  have hr := remainder_lt s
  rw [absorbPayload_read h hi, pendingOf_getElem?, List.length_append, hl]
  by_cases hlt : remainder s + data.length < 64
  · rw [if_pos hlt, Nat.div_eq_of_lt hlt, Nat.mul_zero, Nat.zero_add]
    by_cases hir : i < remainder s
    · rw [if_pos hir, hp i hir, List.getElem?_append_left (by omega)]
    · rw [if_neg hir, List.getElem?_append_right (by omega), hl]
  · rw [if_neg hlt, List.getElem?_append_right (by omega), hl]
    congr 1
    omega

/-- `BufRead` of the pending cells after a payload. -/
theorem absorbPayload_bufRead {data pend : List Byte} {s u : State} (h : absorbPayload data s = .ok u)
    (hl : pend.length = remainder s) (hp : ∀ i < remainder s, s.buf.read i = pend[i]?) :
    bufRead u.buf 0 (remainder u) = .ok (pendingOf (pend ++ data)) := by
  have hlen : (pendingOf (pend ++ data)).length = remainder u := by
    rw [pendingOf_length, List.length_append, hl, absorbPayload_remainder h]
  refine bufRead_eq_ok hlen (by have := remainder_lt u; omega) fun i hi => ?_
  rw [Nat.zero_add, absorbPayload_read_pending h hl hp hi]

/-- Settles O41: the pending bytes are readable, so the payload steps answer; lanes, `COUNT` and pending cells are those
of `pend ++ data`. -/
theorem updateAbsorbsThePayload : Obligations.UpdateAbsorbsThePayload := by
  unfold Obligations.UpdateAbsorbsThePayload
  intro s data pend hok hactive hfits hpend
  obtain ⟨-, hl, hcells⟩ := bufRead_ok hpend
  have hp : ∀ i < remainder s, s.buf.read i = pend[i]? := fun i hi => by rw [← hcells i hi, Nat.zero_add]
  have hreadable : PendingReadable s := fun i hi => by
    rw [hp i hi, isSome_getElem?, hl]
    exact hi
  obtain ⟨u, hu⟩ := absorbPayload_answers (data := data) hreadable
  have hframe := absorbPayload_frame hu
  have herr : u.err = 0#3 := by rw [hframe]; exact hok
  have hphase : u.phase = .active := by rw [hframe]; exact hactive
  have hexec : exec (.update data) s = _ := updateCommand_completes hok hactive hfits hu
  rw [respondStatus_active herr hphase] at hexec
  have hlanes := absorbPayload_lanes hu hl hp
  have hcount := absorbPayload_count hu hfits
  have hread := absorbPayload_bufRead hu hl hp
  exact ⟨_, hexec, hlanes, hcount, hread, by rw [hframe], by rw [hframe], hphase, herr, by rw [hframe], by rw [hframe]⟩

/-- Settles O43: no byte to absorb, and a legal count with nothing added does not overflow. -/
theorem emptyUpdateIsANoOp : Obligations.EmptyUpdateIsANoOp := by
  unfold Obligations.EmptyUpdateIsANoOp
  intro s hok hactive hcount
  have hexec : exec (.update []) s = _ := updateCommand_completes hok hactive hcount (absorbPayload_nil s)
  rw [hexec, respondStatus_active hok hactive]

/-! ### UPDATE: which cells it writes -/

/-- How many bytes of the payload go behind the pending ones, none when none is pending (43 R142 step (a)). -/
def toppedUpBytes (data : List Byte) (s : State) : Nat :=
  if remainder s > 0 then topUp (remainder s) data.length else 0

/-- Where in the payload the bytes after its last super-block begin (43 R142 step (b)). -/
def restCursor (data : List Byte) (s : State) : Nat :=
  toppedUpBytes data s + 64 * fullBlocks data.length (toppedUpBytes data s)

/-- How many bytes go to the cells from 0 on: none when the pending bytes stay pending (43 R142 step (c)). -/
def restBytes (data : List Byte) (s : State) : Nat :=
  if remainder s > 0 ∧ remainder s + toppedUpBytes data s < 64 then 0 else data.length - restCursor data s

theorem toppedUpBytes_short {data : List Byte} {s : State} (h : 0 < remainder s)
    (hlt : remainder s + data.length < 64) : toppedUpBytes data s = data.length := by
  rw [toppedUpBytes, if_pos h, topUp, Nat.min_eq_left (by omega)]

theorem toppedUpBytes_fill {data : List Byte} {s : State} (h : 0 < remainder s)
    (hge : 64 ≤ remainder s + data.length) : toppedUpBytes data s = 64 - remainder s := by
  rw [toppedUpBytes, if_pos h, topUp, Nat.min_eq_right (by omega)]

theorem toppedUpBytes_aligned {data : List Byte} {s : State} (h : remainder s = 0) : toppedUpBytes data s = 0 := by
  rw [toppedUpBytes, if_neg (by omega)]

theorem restBytes_short {data : List Byte} {s : State} (h : 0 < remainder s)
    (hlt : remainder s + data.length < 64) : restBytes data s = 0 := by
  rw [restBytes, toppedUpBytes_short h hlt, if_pos ⟨h, hlt⟩]

theorem restBytes_fill {data : List Byte} {s : State} (h : 0 < remainder s)
    (hge : 64 ≤ remainder s + data.length) : restBytes data s = data.length - restCursor data s := by
  have hr := remainder_lt s
  rw [restBytes, toppedUpBytes_fill h hge, if_neg (by omega)]

theorem restBytes_aligned {data : List Byte} {s : State} (h : remainder s = 0) :
    restBytes data s = data.length - restCursor data s := by
  rw [restBytes, if_neg (by omega)]

/-- Each cell after the bulk loop: a byte of the payload's end, or as before (43 R142 step (c)). -/
theorem absorbRest_read_cell {data : List Byte} {p : Nat} {s u : State} (hp : p ≤ data.length)
    (h : absorbRest data p s = .ok u) (a : Nat) :
    u.buf.read a =
      if a < data.length - (p + 64 * fullBlocks data.length p) then data[p + 64 * fullBlocks data.length p + a]?
      else s.buf.read a := by
  rw [absorbRest_eq s hp] at h
  cases h
  simp [read_writeCells]

/-- Each cell after the top-up (43 R142 step (a)). -/
theorem read_toppedUp (data : List Byte) (s : State) (a : Nat) :
    (toppedUp data s).read a =
      if remainder s ≤ a ∧ a < remainder s + topUp (remainder s) data.length then data[a - remainder s]?
      else s.buf.read a := by
  rw [toppedUp, read_writeCells, List.length_take, Nat.min_eq_left (topUp_le _ _)]
  split
  · rw [List.getElem?_take_of_lt (by omega)]
  · rfl

/-- Each cell after a payload: a byte of its end, a byte of the top-up, or as before (43 R142). -/
theorem absorbPayload_read_cell {data : List Byte} {s u : State} (h : absorbPayload data s = .ok u) (a : Nat) :
    u.buf.read a =
      if a < restBytes data s then data[restCursor data s + a]?
      else if remainder s ≤ a ∧ a < remainder s + toppedUpBytes data s then data[a - remainder s]?
      else s.buf.read a := by
  rcases absorbPayload_cases h with ⟨rfl, rfl⟩ | ⟨_, hr, hlt, rfl⟩ | ⟨_, hr, hge, blk, _, h⟩ | ⟨_, h0, h⟩
  · have hnone : toppedUpBytes [] u = 0 := by simp [toppedUpBytes, topUp]
    have hrest : restBytes [] u = 0 := by simp [restBytes]
    rw [hnone, hrest, if_neg (Nat.not_lt_zero a), if_neg (by omega)]
  · rw [read_writeCells, restBytes_short hr hlt, toppedUpBytes_short hr hlt, if_neg (Nat.not_lt_zero a)]
  · have hk := toppedUpBytes_fill hr hge
    have htop : topUp (remainder s) data.length = 64 - remainder s := by rwa [toppedUpBytes, if_pos hr] at hk
    rw [absorbRest_read_cell (by omega) h, restBytes_fill hr hge, restCursor, hk, read_toppedUp, htop]
  · have hk : toppedUpBytes data s = 0 := toppedUpBytes_aligned h0
    rw [absorbRest_read_cell (Nat.zero_le _) h, restBytes_aligned h0, restCursor, hk,
      if_neg (show ¬ (remainder s ≤ a ∧ a < remainder s + 0) by omega)]

/-- Below 64 bytes in the buffer no super-block is absorbed (43 R142). -/
theorem absorbPayload_lanes_stay {data : List Byte} {s u : State} (h : absorbPayload data s = .ok u)
    (hlt : remainder s + data.length < 64) : u.lanes = s.lanes := by
  rcases absorbPayload_cases h with ⟨_, rfl⟩ | ⟨_, _, _, rfl⟩ | ⟨_, _, hge, _⟩ | ⟨_, _, h⟩
  · rfl
  · rfl
  · omega
  · have hnone : fullBlocks data.length 0 = 0 := Nat.div_eq_of_lt (by omega)
    rw [absorbRest_eq s (Nat.zero_le _), hnone] at h
    cases h
    rfl

/-! ### UPDATE: with and without a fault -/

/-- An answered UPDATE has a fault latched after it and leaves `COUNT`, or has absorbed its payload (60 R165). -/
theorem exec_update_faulted_or_completes {data : List Byte} {s t : State} (h : exec (.update data) s = .next t) :
    (t.err ≠ 0#3 ∧ t.count = s.count) ∨
    (t.err = 0#3 ∧ ∃ u, Completes (.update data) s u ∧ t = respondStatus u) := by
  have raised (f : EngineFault) (hok : s.err = 0#3) : (raise f s).err ≠ 0#3 := by
    rw [raise_err, if_pos hok]
    exact faultCode_ne_zero f
  rcases updateCommand_cases h with ⟨he, rfl⟩ | ⟨hok, f, _, rfl⟩ | ⟨hok, _, _, rfl⟩ | ⟨hok, hp, hc, u, hu, rfl⟩
  · exact .inl ⟨he, rfl⟩
  · exact .inl ⟨raised f hok, raise_count f s⟩
  · exact .inl ⟨raised _ hok, raise_count _ s⟩
  · have hdone : Completes (.update data) s u := ⟨hp, hc, hu⟩
    obtain ⟨herr, -, -⟩ := completes_frame hdone
    exact .inr ⟨herr.trans hok, u, hdone, rfl⟩

/-- Settles O42: an UPDATE that ends with no fault has absorbed its payload, and the cells are those of its steps. -/
theorem updateStoresCellByCell : Obligations.UpdateStoresCellByCell := by
  unfold Obligations.UpdateStoresCellByCell
  intro s t data h hok
  rcases exec_update_faulted_or_completes h with ⟨herr, _⟩ | ⟨_, u, hdone, rfl⟩
  · exact absurd hok herr
  · obtain ⟨hacc, hseed, hphase⟩ := completes_update hdone
    obtain ⟨-, hcmds, -⟩ := completes_frame hdone
    obtain ⟨-, -, hu⟩ := hdone
    have hread := absorbPayload_read_cell hu
    have hlanes := absorbPayload_lanes_stay hu
    exact ⟨hread, hacc, hseed, hphase, hcmds, hlanes⟩

/-- A legal count is not the reserved value (10_state R24). -/
theorem ne_sentinel_of_le_maxInput {c : BitVec 64} (h : c.toNat ≤ maxInput) : c ≠ sentinel := by
  rintro rfl
  exact absurd h (by decide)

/-- Settles O53: a faulting UPDATE leaves `COUNT`; one that completes has passed the guard of the sum. -/
theorem counterAddsAndNeverWraps : Obligations.CounterAddsAndNeverWraps := by
  unfold Obligations.CounterAddsAndNeverWraps
  intro s t data hcount h
  rcases exec_update_faulted_or_completes h with ⟨herr, hsame⟩ | ⟨hok, u, ⟨_, hfits, hu⟩, rfl⟩
  · have hle : t.count.toNat ≤ maxInput := by rwa [hsame]
    exact ⟨fun hok => absurd hok herr, fun _ => hsame, hle, ne_sentinel_of_le_maxInput hle⟩
  · have hsum : (respondStatus u).count.toNat = s.count.toNat + data.length := by
      rw [respondStatus_count, absorbPayload_count hu hfits]
    have hle : (respondStatus u).count.toNat ≤ maxInput := by rwa [hsum]
    exact ⟨fun _ => hsum, fun herr => absurd hok herr, hle, ne_sentinel_of_le_maxInput hle⟩

end Sys2Proof.Proofs
end

section
/-! PROOF. FINALIZE answers (43_incremental R143), on either path and for a session that has accepted a stream. -/

namespace Sys2Proof.Proofs

open Sys2Proof Sys2Proof.Machine

/-- After FINALIZE or HASH with no fault the status byte sent is `10`, the digest behind it (30_encoding R69). -/
theorem respondDigest_finalized {s : State} (hok : s.err = 0#3) (hphase : s.phase = .finalized) :
    respondDigest s = { s with resps := s.resps ++ [0x10#8 :: bytesOf s.acc] } := by
  rw [respondDigest, statusByte_finalized hok hphase]
  rfl

/-- FINALIZE in an active session answers the digest that its steps leave in `ACC` (43 R143). -/
theorem finalizeCommand_completes {c : Cfg} {s u : State} (hok : s.err = 0#3) (hactive : s.phase = .active)
    (hu : closeSession c s = .ok u) :
    finalizeCommand c s = .next { u with resps := s.resps ++ [0x10#8 :: bytesOf u.acc] } := by
  have hframe := closeSession_frame hu
  have herr : u.err = 0#3 := by rw [hframe]; exact hok
  have hphase : u.phase = .finalized := by rw [hframe]
  have hresps : u.resps = s.resps := by rw [hframe]
  rw [finalizeCommand, unlessFaulted_of_ok hok]
  simp only [hactive, phaseFault, hu, finish, respondDigest_finalized herr hphase, hresps]

/-- Settles O44: the short path of FINALIZE's steps. -/
theorem finalizeDigestsAShortSession : Obligations.FinalizeDigestsAShortSession := by
  unfold Obligations.FinalizeDigestsAShortSession
  intro s d hok hactive hshort hread
  exact finalizeCommand_completes hok hactive (closeSession_short hshort hread)

/-- Settles O45: the long path, with the cross-lane mix and the reduction written out. -/
theorem finalizeDigestsALongSession : Obligations.FinalizeDigestsALongSession := by
  unfold Obligations.FinalizeDigestsALongSession
  intro s d hok hactive hlong hread
  exact finalizeCommand_completes hok hactive (closeSession_long hlong hread)

/-- FINALIZE of a session that has accepted `stream` (43 R143, R145). -/
theorem finalizeCommand_accepted {c : Cfg} {seed : V128} {stream : List Byte} {s : State} (hok : s.err = 0#3)
    (hs : Accepted c seed stream s) :
    finalizeCommand c s = .next { closedSession c seed stream s with
      resps := s.resps ++ [0x10#8 :: bytesOf (hybrid c stream seed)] } := by
  have ⟨hactive, _⟩ := hs
  exact finalizeCommand_completes hok hactive (closeSession_accepted hs)

/-- Settles O49: the digest steps of a session leave `HYBRID` of its stream. -/
theorem finalizeDigestsTheStream : Obligations.FinalizeDigestsTheStream := by
  unfold Obligations.FinalizeDigestsTheStream
  intro seed stream s hok hs
  exact ⟨_, finalizeCommand_accepted hok hs, rfl, rfl, rfl⟩

end Sys2Proof.Proofs
end

section
/-! PROOF. The phase after every command and after the reset event (43_incremental R140). -/

namespace Sys2Proof.Proofs

open Sys2Proof Sys2Proof.Machine

/-! ### The blank cells of the table: UPDATE and FINALIZE outside an active session -/

theorem updateCommand_raises (data : List Byte) {s : State} {f : EngineFault} (hok : s.err = 0#3)
    (hf : phaseFault s.phase = some f) : updateCommand data s = .next (raise f s) := by
  rw [updateCommand, unlessFaulted_of_ok hok]
  simp only [hf]

theorem finalizeCommand_raises (c : Cfg) {s : State} {f : EngineFault} (hok : s.err = 0#3)
    (hf : phaseFault s.phase = some f) : finalizeCommand c s = .next (raise f s) := by
  rw [finalizeCommand, unlessFaulted_of_ok hok]
  simp only [hf]

/-- After the fault entry of a phase test the phase is as before and `ERR` is the code of the fault (60 R166). -/
theorem phase_err_of_raise {o : Host.Outcome State Fault Refusal} {f : EngineFault} {s t : State} (hok : s.err = 0#3)
    (ho : o = .next (raise f s)) (h : o = .next t) : t.phase = s.phase ∧ t.err = faultCode f := by
  rw [ho] at h
  cases h
  exact ⟨raise_phase f s, by rw [raise_err, if_pos hok]⟩

/-! ### The rows of the table -/

theorem exec_init_phase {seed : Option V128} {s t : State} (hok : s.err = 0#3) (h : exec (.init seed) s = .next t) :
    t.phase = .active := by
  rcases initCommand_cases h with ⟨herr, _⟩ | ⟨_, rfl⟩
  · exact absurd hok herr
  · rfl

theorem exec_finalize_phase {s t : State} (hok : s.err = 0#3) (hactive : s.phase = .active)
    (h : exec .finalize s = .next t) : t.phase = .finalized := by
  rcases finalizeCommand_cases h with ⟨herr, _⟩ | ⟨_, f, hf, _⟩ | ⟨_, _, u, hu, rfl⟩
  · exact absurd hok herr
  · rw [hactive] at hf
    cases hf
  · rw [respondDigest_phase, closeSession_frame hu]

theorem exec_hash_phase {seed : Option V128} {data : List Byte} {s t : State} (hok : s.err = 0#3)
    (h : exec (.hash seed data) s = .next t) :
    t.phase = if data.length ≤ maxInput then .finalized else s.phase := by
  rcases hashCommand_cases h with ⟨herr, _⟩ | ⟨_, hlong, rfl⟩ | ⟨_, hlen, w, u, _, hu, rfl⟩
  · exact absurd hok herr
  · rw [if_neg (by omega), raise_phase]
  · rw [if_pos hlen, respondDigest_phase, closeSession_frame hu]

theorem step_reset_phase {s t : State} {rest : List HostEvent} (hc : s.cmds = .reset :: rest)
    (h : step s = .next t) : t.phase = .idle := by
  simp only [step, takeEvent_cons hc] at h
  cases h
  rfl

/-- Settles O39, row by row. -/
theorem phaseMovesAsTheTableSays : Obligations.PhaseMovesAsTheTableSays := by
  unfold Obligations.PhaseMovesAsTheTableSays
  refine ⟨fun s t seed hok h => exec_init_phase hok h, fun s t data hok h => ?update, fun s t hok h => ?finalize,
    fun s t seed data hok h => exec_hash_phase hok h, fun s t rest hc h => step_reset_phase hc h,
    fun s t i herr h => ?faulted⟩
  case update =>
    obtain ⟨-, -, hphase⟩ := exec_update_frame h
    have hraise (f : EngineFault) (hf : phaseFault s.phase = some f) : t.err = faultCode f :=
      (phase_err_of_raise hok (updateCommand_raises data hok hf) h).right
    exact ⟨hphase, fun hidle => hraise .noSession (by rw [hidle]; rfl),
      fun hfinal => hraise .reuseAfterFinalize (by rw [hfinal]; rfl)⟩
  case finalize =>
    have hraise (f : EngineFault) (hf : phaseFault s.phase = some f) : t.phase = s.phase ∧ t.err = faultCode f :=
      phase_err_of_raise hok (finalizeCommand_raises Config.cfg hok hf) h
    refine ⟨fun hidle => ?_, fun hactive => exec_finalize_phase hok hactive h, fun hfinal => ?_⟩
    · obtain ⟨hphase, herr⟩ := hraise .noSession (by rw [hidle]; rfl)
      exact ⟨hphase.trans hidle, herr⟩
    · obtain ⟨hphase, herr⟩ := hraise .reuseAfterFinalize (by rw [hfinal]; rfl)
      exact ⟨hphase.trans hfinal, herr⟩
  case faulted =>
    rw [exec_of_err i herr] at h
    cases h
    rfl

end Sys2Proof.Proofs
end

section
/-! PROOF. Chunking invariance (43_incremental R145): a session fed chunk by chunk has accepted the joined chunks, and
two sessions that have accepted the same bytes close alike. -/

namespace Sys2Proof.Proofs

open Sys2Proof Sys2Proof.Machine

/-! ### Runs of commands -/

theorem runCommands_cons {i : Instr} {s t : State} (is : List Instr) (h : exec i s = .next t) :
    runCommands (i :: is) s = runCommands is t := by
  simp only [runCommands, h]

/-- A run goes on with the commands behind it from where it ends. -/
theorem runCommands_append {is js : List Instr} {s t : State} (h : runCommands is s = .next t) :
    runCommands (is ++ js) s = runCommands js t := by
  induction is generalizing s with
  | nil =>
    cases h
    rfl
  | cons i is ih =>
    cases hi : exec i s with
    | next u =>
      rw [runCommands_cons is hi] at h
      rw [List.cons_append, runCommands_cons _ hi, ih h]
    | fault f => simp [runCommands, hi] at h
    | refused r => simp [runCommands, hi] at h

/-! ### A session fed chunk by chunk -/

/-- The UPDATEs of a list of chunks extend the stream by the joined chunks (43 R142, R145). -/
theorem runCommands_updates {c : Cfg} {seed : V128} {stream : List Byte} {chunks : List (List Byte)} {s : State}
    (hok : s.err = 0#3) (hs : Accepted c seed stream s)
    (hfits : stream.length + chunks.flatten.length ≤ 2 ^ 64 - 2) :
    ∃ t, runCommands (chunks.map .update) s = .next t ∧ t.err = 0#3 ∧ t.cmds = s.cmds ∧
      Accepted c seed (stream ++ chunks.flatten) t := by
  induction chunks generalizing stream s with
  | nil =>
    rw [List.flatten_nil, List.append_nil]
    exact ⟨s, rfl, hok, rfl, hs⟩
  | cons data chunks ih =>
    rw [List.flatten_cons, List.length_append] at hfits
    obtain ⟨u, hexec, hu_ok, hu⟩ := updateExtendsTheStream c seed stream data s hok hs (by omega)
    obtain ⟨hu_cmds, -⟩ := exec_frame hexec
    obtain ⟨t, hrun, ht_ok, ht_cmds, ht⟩ := ih hu_ok hu (by rw [List.length_append]; omega)
    rw [List.append_assoc, ← List.flatten_cons] at ht
    exact ⟨t, (runCommands_cons _ hexec).trans hrun, ht_ok, ht_cmds.trans hu_cmds, ht⟩

/-- INIT, the UPDATEs and FINALIZE close a session that has accepted the joined chunks (43 R145). -/
theorem runCommands_session (seed : Option V128) {chunks : List (List Byte)} {s : State} (hok : s.err = 0#3)
    (hfits : chunks.flatten.length ≤ 2 ^ 64 - 2) :
    ∃ w, w.err = 0#3 ∧ w.cmds = s.cmds ∧ Accepted Config.cfg (seedOr seed) chunks.flatten w ∧
      runCommands (.init seed :: (chunks.map .update ++ [.finalize])) s =
        .next { closedSession Config.cfg (seedOr seed) chunks.flatten w with
          resps := w.resps ++ [0x10#8 :: bytesOf (hybrid Config.cfg chunks.flatten (seedOr seed))] } := by
  obtain ⟨o, hinit, ho_ok, ho⟩ := initStartsTheEmptyStream s seed hok
  obtain ⟨ho_cmds, -⟩ := exec_frame hinit
  obtain ⟨w, hupdates, hw_ok, hw_cmds, hw⟩ := runCommands_updates (chunks := chunks) ho_ok ho (by simpa using hfits)
  rw [List.nil_append] at hw
  refine ⟨w, hw_ok, hw_cmds.trans ho_cmds, hw, ?_⟩
  rw [runCommands_cons _ hinit, runCommands_append hupdates]
  exact runCommands_cons [] (finalizeCommand_accepted hw_ok hw)

/-! ### Two sessions of the same stream -/

/-- Sessions that have accepted the same bytes under the same seed close in states that differ at most in stale cells,
when the responses sent are left aside (10_state R33). -/
theorem closedSession_sameUpToStale {c : Cfg} {seed : V128} {stream : List Byte} {v w : State}
    (hv : Accepted c seed stream v) (hw : Accepted c seed stream w) (herr : w.err = v.err) (hcmds : w.cmds = v.cmds) :
    SameUpToStale { closedSession c seed stream v with resps := [] }
      { closedSession c seed stream w with resps := [] } := by
  have hrem : remainder w = remainder v := (accepted_remainder hw).trans (accepted_remainder hv).symm
  have hcells : ∀ i < remainder v, v.buf.read i = w.buf.read i := fun i hi => by
    rw [accepted_read hv hi, accepted_read hw (hrem ▸ hi)]
  obtain ⟨-, hv_seed, -, hv_count, hv_lanes, -⟩ := hv
  obtain ⟨-, hw_seed, -, hw_count, hw_lanes, -⟩ := hw
  have hseed : w.seed = v.seed := hw_seed.trans hv_seed.symm
  have hcount : w.count = v.count := BitVec.eq_of_toNat_eq (hw_count.trans hv_count.symm)
  have hlanes : w.lanes = v.lanes := hw_lanes.trans hv_lanes.symm
  refine ⟨?_, hcells⟩
  simp only [closedSession, herr, hcmds, hseed, hcount, hlanes]

/-- HASH answers what its inner session closes with (42 R131, R132). -/
theorem exec_hash_session (seed : Option V128) {data : List Byte} {s : State} (hok : s.err = 0#3)
    (hfits : data.length ≤ 2 ^ 64 - 2) :
    ∃ w, w.err = 0#3 ∧ w.cmds = s.cmds ∧ Accepted Config.cfg (seedOr seed) data w ∧
      exec (.hash seed data) s = .next (respondDigest (closedSession Config.cfg (seedOr seed) data w)) := by
  obtain ⟨w, hw, haccepted, hsteps⟩ := hashSteps_eq Config.cfg (seedOr seed) s hfits
  have hframe := absorbPayload_frame hw
  exact ⟨w, by rw [hframe]; exact hok, by rw [hframe, openSession_cmds], haccepted,
    hashCommand_completes hok hfits hsteps⟩

/-- Settles O50: fed in chunks or at once, the engine closes a session of the same stream. -/
theorem chunkBoundariesDoNotMatter : Obligations.ChunkBoundariesDoNotMatter := by
  unfold Obligations.ChunkBoundariesDoNotMatter
  intro s seed chunks hok hfits
  obtain ⟨w, hw_err, hw_cmds, hw, hrun⟩ := runCommands_session seed hok hfits
  obtain ⟨v, hv_err, hv_cmds, hv, hhash⟩ := exec_hash_session seed hok hfits
  have hsame := closedSession_sameUpToStale hv hw (hw_err.trans hv_err.symm) (hw_cmds.trans hv_cmds.symm)
  exact ⟨_, _, hrun, hhash, rfl, List.getLast?_concat, hsame⟩

end Sys2Proof.Proofs
end

section
/-! PROOF. The engine's faults (60_exceptions R161 to R168): the first fault that a packet raises, as a function of the
packet and the state; fault entry when there is one, `ERR = 0` when there is none; and the faulted engine. -/

namespace Sys2Proof.Proofs

open Sys2Proof Sys2Proof.Machine

/-! ### A faulted engine -/

/-- A faulted engine takes a packet and sends the status byte, before decoding (60 R167). -/
theorem step_of_err {s : State} {p : List Byte} {rest : List HostEvent} (herr : s.err ≠ 0#3)
    (hcmds : s.cmds = .packet p :: rest) :
    step s = .next { s with cmds := rest, resps := s.resps ++ [[statusByte s]] } := by
  have htake : takeEvent s = some (.packet p, { s with cmds := rest }) := takeEvent_cons hcmds
  have hfaulted : faulted { s with cmds := rest } = true := faulted_eq_true.2 herr
  simp only [step, htake, hfaulted, if_true]
  rfl

/-- Settles O31: a step refuses before decoding, and each command as its first test. -/
theorem faultedEngineRefusesEveryPacket : Obligations.FaultedEngineRefusesEveryPacket := by
  unfold Obligations.FaultedEngineRefusesEveryPacket
  exact ⟨fun s p rest herr hcmds => step_of_err herr hcmds, fun s i herr => exec_of_err i herr⟩

/-- Settles O32, by induction on the packets: a refused packet leaves `ERR`, `PHASE` and so the status byte. -/
theorem faultedRunChangesNothing : Obligations.FaultedRunChangesNothing := by
  unfold Obligations.FaultedRunChangesNothing
  intro packets
  induction packets with
  | nil =>
    intro s rest _ hcmds
    have hrest : s.cmds = rest := hcmds
    simp [Host.Core.run, ← hrest]
  | cons p packets ih =>
    intro s rest herr hcmds
    have hstep := step_of_err herr hcmds
    have hrest := ih { s with cmds := packets.map .packet ++ rest, resps := s.resps ++ [[statusByte s]] } rest herr rfl
    rw [List.append_assoc, List.singleton_append] at hrest
    exact (run_succ_next Sys2Proof.core hstep).trans hrest

/-! ### The first fault of a packet -/

/-- The first fault that the command `i` raises on an engine with none latched, in the order of 60 R165: the phase
test, then the length. -/
def firstFault (s : State) : Instr → Option EngineFault
  | .init _ => none
  | .update data =>
    (phaseFault s.phase).or (if s.count.toNat + data.length > maxInput then some .lengthOverflow else none)
  | .finalize => phaseFault s.phase
  | .hash _ data => if data.length > maxInput then some .lengthOverflow else none

/-- The first fault that a packet raises on an engine with none latched: decoding, then its command's (60 R165). -/
def packetFault (s : State) (p : List Byte) : Option EngineFault :=
  match decode p with
  | .error _ => some .illegalCommand
  | .ok i => firstFault s i

/-- The value `ERR` takes: the code of the fault raised, or 0 (10_state R28). -/
def errAfter : Option EngineFault → BitVec 3
  | none => 0#3
  | some f => faultCode f

@[simp] theorem errAfter_none : errAfter none = 0#3 := rfl
@[simp] theorem errAfter_some (f : EngineFault) : errAfter (some f) = faultCode f := rfl

theorem packetFault_of_error {s : State} {p : List Byte} {e : DecodeError} (h : decode p = .error e) :
    packetFault s p = some .illegalCommand := by
  simp only [packetFault, h]

theorem packetFault_of_ok {s : State} {p : List Byte} {i : Instr} (h : decode p = .ok i) :
    packetFault s p = firstFault s i := by
  simp only [packetFault, h]

/-! ### Fault entry -/

/-- Fault entry on an engine with no fault latched writes `ERR` and sends the status byte (60 R166). -/
theorem raise_eq (f : EngineFault) {s : State} (hok : s.err = 0#3) :
    raise f s = { s with
      err := faultCode f
      resps := s.resps ++ [[0#3 ++ phaseCode s.phase ++ faultCode f]] } := by
  rw [raise_of_ok f hok]
  rfl

theorem updateCommand_overflows {data : List Byte} {s : State} (hok : s.err = 0#3) (hphase : phaseFault s.phase = none)
    (hlong : s.count.toNat + data.length > maxInput) : updateCommand data s = .next (raise .lengthOverflow s) := by
  rw [updateCommand, unlessFaulted_of_ok hok]
  simp only [hphase, overflows, hlong, decide_true, if_true]

theorem hashCommand_overflows (c : Cfg) (v : V128) {data : List Byte} {s : State} (hok : s.err = 0#3)
    (hlong : data.length > maxInput) : hashCommand c v data s = .next (raise .lengthOverflow s) := by
  rw [hashCommand, unlessFaulted_of_ok hok, if_pos hlong]

/-- A command with a fault enters it, and nothing else happens (60 R165, R166). -/
theorem exec_raises {i : Instr} {s : State} {f : EngineFault} (hok : s.err = 0#3) (hf : firstFault s i = some f) :
    exec i s = .next (raise f s) := by
  cases i with
  | init seed => cases hf
  | update data =>
    rcases Option.or_eq_some_iff.1 hf with hphase | ⟨hphase, hlong⟩
    · exact updateCommand_raises data hok hphase
    · obtain ⟨hsum, rfl⟩ := Option.ite_some_none_eq_some.1 hlong
      exact updateCommand_overflows hok hphase hsum
  | finalize => exact finalizeCommand_raises Config.cfg hok hf
  | hash seed data =>
    obtain ⟨hlong, rfl⟩ := Option.ite_some_none_eq_some.1 hf
    exact hashCommand_overflows Config.cfg (seedOr seed) hok hlong

/-- An answered command with no fault has completed, and leaves `ERR` at 0 (60 R165). -/
theorem exec_err_of_firstFault_none {i : Instr} {s t : State} (hok : s.err = 0#3) (hf : firstFault s i = none)
    (h : exec i s = .next t) : t.err = 0#3 := by
  have completed {u : State} (hu : Completes i s u) : u.err = 0#3 := by
    obtain ⟨herr, -, -⟩ := completes_frame hu
    exact herr.trans hok
  cases i with
  | init seed =>
    rcases initCommand_cases h with ⟨herr, _⟩ | ⟨_, rfl⟩
    · exact absurd hok herr
    · exact completed (u := openSession Config.cfg (seedOr seed) s) rfl
  | update data =>
    obtain ⟨hphase, hfits⟩ := Option.or_eq_none_iff.1 hf
    rcases updateCommand_cases h with ⟨herr, _⟩ | ⟨_, f, hraised, _⟩ | ⟨_, _, hlong, _⟩ | ⟨_, hp, hc, u, hu, rfl⟩
    · exact absurd hok herr
    · simp [hphase] at hraised
    · simp [hlong] at hfits
    · exact completed (u := u) ⟨hp, hc, hu⟩
  | finalize =>
    rcases finalizeCommand_cases h with ⟨herr, _⟩ | ⟨_, f, hraised, _⟩ | ⟨_, hp, u, hu, rfl⟩
    · exact absurd hok herr
    · cases hf.symm.trans hraised
    · exact completed (u := u) ⟨hp, hu⟩
  | hash seed data =>
    rcases hashCommand_cases h with ⟨herr, _⟩ | ⟨_, hlong, _⟩ | ⟨_, hl, w, u, hw, hu, rfl⟩
    · exact absurd hok herr
    · simp [firstFault, hlong] at hf
    · exact completed (u := u) ⟨hl, w, hw, hu⟩

/-- A step on a packet, no fault latched, enters the packet's first fault, or has none and leaves `ERR` at 0
(60 R165, R166). -/
theorem step_raises_or_completes {s t : State} {p : List Byte} {rest : List HostEvent} (hok : s.err = 0#3)
    (hcmds : s.cmds = .packet p :: rest) (h : step s = .next t) :
    (∃ f, packetFault s p = some f ∧ t = raise f { s with cmds := rest }) ∨
    (packetFault s p = none ∧ t.err = 0#3) := by
  cases hd : decode p with
  | error e =>
    rw [step_of_illegal hok hcmds hd] at h
    cases h
    exact .inl ⟨_, packetFault_of_error hd, (raise_eq .illegalCommand (s := { s with cmds := rest }) hok).symm⟩
  | ok i =>
    rw [stepRunsTheDecodedCommand s p rest i hok hcmds hd] at h
    rw [packetFault_of_ok hd]
    cases hf : firstFault s i with
    | none => exact .inr ⟨rfl, exec_err_of_firstFault_none (s := { s with cmds := rest }) hok hf h⟩
    | some f =>
      rw [exec_raises (s := { s with cmds := rest }) hok hf] at h
      cases h
      exact .inl ⟨f, rfl, rfl⟩

/-! ### The code reported -/

/-- The status byte as 60 R166 writes it. -/
theorem statusFields_eq_or (p : BitVec 2) (e : BitVec 3) :
    0#3 ++ p ++ e = e.setWidth 8 ||| p.setWidth 8 <<< 3 := by
  revert p e
  decide

theorem faultCode_mem (f : EngineFault) : faultCode f ∈ [1#3, 2#3, 3#3, 4#3] := by
  cases f <;> decide

/-- Settles O34: `ERR` not 0 after the step shuts out the packet with no fault, and the rest is fault entry. -/
theorem faultEntryWritesErrOnly : Obligations.FaultEntryWritesErrOnly := by
  unfold Obligations.FaultEntryWritesErrOnly
  intro s t p rest hok hcmds h herr
  rcases step_raises_or_completes hok hcmds h with ⟨f, _, rfl⟩ | ⟨_, hzero⟩
  · rw [raise_eq f (s := { s with cmds := rest }) hok, ← statusFields_eq_or]
    exact ⟨faultCode_mem f, rfl⟩
  · exact absurd hzero herr

/-- The first fault of a packet is one that 60 R165 lists for the phase. -/
theorem codeAllowed_packetFault (s : State) (p : List Byte) :
    codeAllowed s.phase (errAfter (packetFault s p)) = true := by
  have hzero : codeAllowed s.phase 0#3 = true := by cases s.phase <;> rfl
  have hlength (n : Nat) :
      codeAllowed s.phase (errAfter (if n > maxInput then some .lengthOverflow else none)) = true := by
    split
    · exact codeAllowed_lengthOverflow s.phase
    · exact hzero
  cases hd : decode p with
  | error e =>
    rw [packetFault_of_error hd]
    exact codeAllowed_illegalCommand s.phase
  | ok i =>
    rw [packetFault_of_ok hd]
    cases i with
    | init seed => exact hzero
    | update data =>
      rw [firstFault]
      cases hphase : phaseFault s.phase with
      | none => exact hlength _
      | some f => exact codeAllowed_phaseFault hphase
    | finalize =>
      rw [firstFault]
      cases hphase : phaseFault s.phase with
      | none => exact hzero
      | some f => exact codeAllowed_phaseFault hphase
    | hash seed data => exact hlength _

/-- The code after a packet on an engine with no fault latched (60 R165). -/
theorem step_err {s t : State} {p : List Byte} {rest : List HostEvent} (hok : s.err = 0#3)
    (hcmds : s.cmds = .packet p :: rest) (h : step s = .next t) : t.err = errAfter (packetFault s p) := by
  rcases step_raises_or_completes hok hcmds h with ⟨f, hf, rfl⟩ | ⟨hf, hzero⟩
  · rw [hf, raise_err, if_pos hok, errAfter_some]
  · rw [hf, hzero, errAfter_none]

/-- The code that a length test of 60 R164 reports. -/
theorem errAfter_length (n : Nat) :
    errAfter (if n > maxInput then some .lengthOverflow else none) = if n > 2 ^ 64 - 2 then 4#3 else 0#3 :=
  apply_ite errAfter _ _ _

/-- Settles O35: a latched code stays; else the code is that of the packet's first fault, case by case of decoding,
command and phase. -/
theorem firstFaultInOrderIsReported : Obligations.FirstFaultInOrderIsReported := by
  unfold Obligations.FirstFaultInOrderIsReported
  intro s t p rest hcmds h
  by_cases hok : s.err = 0#3
  · have hcode := step_err hok hcmds h
    refine ⟨?_, fun _ => hcode ▸ codeAllowed_packetFault s p⟩
    rw [if_neg (not_not.2 hok), hcode]
    cases hd : decode p with
    | error e => rw [packetFault_of_error hd]; rfl
    | ok i =>
      rw [packetFault_of_ok hd]
      cases i with
      | init seed => rfl
      | update data =>
        rw [firstFault]
        cases s.phase with
        | active => exact errAfter_length _
        | idle | finalized => rfl
      | finalize =>
        rw [firstFault]
        cases s.phase <;> rfl
      | hash seed data => exact errAfter_length _
  · rw [step_of_err hok hcmds] at h
    cases h
    exact ⟨(if_pos hok).symm, fun hzero => absurd hzero hok⟩

/-! ### The faults of each command -/

/-- A command's fault entry, written out (60 R166). -/
theorem exec_of_firstFault {i : Instr} {s : State} {f : EngineFault} (hok : s.err = 0#3)
    (hf : firstFault s i = some f) :
    exec i s = .next { s with
      err := faultCode f
      resps := s.resps ++ [[0#3 ++ phaseCode s.phase ++ faultCode f]] } := by
  rw [exec_raises hok hf, raise_eq f hok]

/-- A phase test comes before the length (60 R165). -/
theorem firstFault_update_of_phase {s : State} {f : EngineFault} (data : List Byte) (h : phaseFault s.phase = some f) :
    firstFault s (.update data) = some f := by
  rw [firstFault, h, Option.some_or]

/-- Settles O36: the phase test of UPDATE and FINALIZE in `IDLE`. -/
theorem commandsWithoutSessionFault : Obligations.CommandsWithoutSessionFault := by
  unfold Obligations.CommandsWithoutSessionFault
  intro s hok hidle
  have hphase : phaseFault s.phase = some .noSession := by rw [hidle]; rfl
  have hbyte : 0#3 ++ phaseCode s.phase ++ faultCode .noSession = 0x02#8 := by rw [hidle]; rfl
  rw [← hbyte]
  exact ⟨fun data => exec_of_firstFault hok (firstFault_update_of_phase data hphase),
    exec_of_firstFault (i := .finalize) hok hphase⟩

/-- Settles O37: the phase test of UPDATE and FINALIZE in `FINALIZED`; INIT and HASH have none and complete. -/
theorem finalizedSessionCannotBeReused : Obligations.FinalizedSessionCannotBeReused := by
  unfold Obligations.FinalizedSessionCannotBeReused
  intro s hok hfinal
  have hphase : phaseFault s.phase = some .reuseAfterFinalize := by rw [hfinal]; rfl
  have hbyte : 0#3 ++ phaseCode s.phase ++ faultCode .reuseAfterFinalize = 0x13#8 := by rw [hfinal]; rfl
  rw [← hbyte]
  refine ⟨fun data => exec_of_firstFault hok (firstFault_update_of_phase data hphase),
    exec_of_firstFault (i := .finalize) hok hphase, fun seed => ?init, fun seed data hlen => ?hash⟩
  case init => exact ⟨_, initCommand_completes Config.cfg (seedOr seed) hok, hok, rfl⟩
  case hash =>
    obtain ⟨w, hw_ok, -, -, hexec⟩ := exec_hash_session seed hok hlen
    exact ⟨_, hexec, hw_ok, rfl⟩

/-- Settles O38: the length test of UPDATE in an active session and of HASH in any phase. -/
theorem tooLongAStreamIsRejected : Obligations.TooLongAStreamIsRejected := by
  unfold Obligations.TooLongAStreamIsRejected
  refine ⟨fun s data hok hactive hlong => ?update, fun s seed data hok hlong => ?hash⟩
  case update =>
    have hfault : firstFault s (.update data) = some .lengthOverflow := by
      rw [firstFault, hactive, phaseFault, Option.none_or]
      exact if_pos hlong
    have hbyte : 0#3 ++ phaseCode s.phase ++ faultCode .lengthOverflow = 0x0c#8 := by rw [hactive]; rfl
    rw [← hbyte]
    exact exec_of_firstFault hok hfault
  case hash =>
    have hfault : firstFault s (.hash seed data) = some .lengthOverflow := if_pos hlong
    exact exec_of_firstFault hok hfault

end Sys2Proof.Proofs
end

section
/-! PROOF. Waiting, the reset event, and runs of any length (70_reset_and_hazards R190, R194, R195; 10_state R36): the
invariant and the answer of one step, carried along a run. -/

namespace Sys2Proof.Proofs

open Sys2Proof Sys2Proof.Machine

/-! ### Single steps -/

/-- Settles O22: there is no event to take. -/
theorem stepWaitsForACommand : Obligations.StepWaitsForACommand := by
  unfold Obligations.StepWaitsForACommand
  intro s hcmds
  simp only [step, takeEvent_nil hcmds]

/-- A step that takes the reset event answers the reset engine (70 R190). -/
theorem step_of_reset {s : State} {rest : List HostEvent} (hcmds : s.cmds = .reset :: rest) :
    step s = .next (resetEvent { s with cmds := rest }) := by
  simp only [step, takeEvent_cons hcmds]

/-- Settles O23: the registers and cells are those of the reset state, the channels those of the state that took the
event. -/
theorem resetEventClearsTheEngine : Obligations.ResetEventClearsTheEngine := by
  unfold Obligations.ResetEventClearsTheEngine
  intro s rest hcmds
  obtain ⟨hphase, herr, hcount, hbuf⟩ := resetStateHasTheStatedValues
  exact ⟨_, step_of_reset hcmds, hphase, herr, hcount, hbuf, rfl, rfl⟩

/-! ### Runs -/

/-- From a state that meets the invariant a run of any length answers a state that meets it: each step answers
(70 R194) and keeps the invariant (10_state R33). -/
theorem run_answers_engineInv (n : Nat) {s : State} (hs : EngineInv s) :
    ∃ t, Host.Core.run Sys2Proof.core n s = .next t ∧ EngineInv t := by
  induction n generalizing s with
  | zero => exact ⟨s, rfl, hs⟩
  | succ n ih =>
    obtain ⟨u, hstep⟩ := stepAlwaysAnswers s hs
    obtain ⟨t, hrun, ht⟩ := ih (stepKeepsTheInvariant s u hs hstep)
    exact ⟨t, (run_succ_next Sys2Proof.core hstep).trans hrun, ht⟩

/-- Settles O30: the invariant speaks of registers and cells only, so the reset state meets it whatever the host has
put on the command channel. -/
theorem noRunFromResetStops : Obligations.NoRunFromResetStops := by
  unfold Obligations.NoRunFromResetStops
  intro n events
  have hinv : EngineInv { State.reset with cmds := events } := resetMeetsTheInvariant
  exact run_answers_engineInv n hinv

end Sys2Proof.Proofs
end
